-- ==== Sys2Proof/Word.lean ====
section
/-! DEFINITION. The word types of the CRC-16 engine (spec 00_scope.md R8 to R10): every datapath value is an unsigned
16-bit word or an 8-bit byte, bit 0 the least significant. -/

namespace Sys2Proof

/-- A datapath value, table entry, command word or response datum (R10, R43). -/
abbrev Word := BitVec 16

/-- A message byte or a table index (R64). -/
abbrev Byte := BitVec 8

/-- A variant id 0..7, as `cur` holds it (R23, R80). -/
abbrev VariantId := BitVec 3

/-- The `VID` field of a command word, 0..15 (R63, R64). -/
abbrev VidField := BitVec 4

end Sys2Proof
end

