-- ==== Sys2Proof/Syntax.lean ====
section
/-! DEFINITION. The commands (30_encoding.md R65), one constructor for each row of the opcode table, the two ways a word
is ILLEGAL (R66, R67), and the assembler's lines (R72, R74). -/

namespace Sys2Proof

/-- The six commands of R65 with the operands of R64, as fields of the word's own widths. -/
inductive Instr where
  /-- STATUS (R85). -/
  | status
  /-- INIT (R104). -/
  | init
  /-- START vid (R125). -/
  | start (vid : VidField)
  /-- BYTE b (R126). -/
  | byte (b : Byte)
  /-- FINAL (R127). -/
  | final
  /-- TBLRD vid, i (R105). -/
  | tblrd (vid : VidField) (i : Byte)
  deriving DecidableEq, Repr

/-- Why a word decodes to no command (`ILLEGAL` of R68). -/
inductive Illegal where
  /-- `OP` is 0x6..0xF (R67). -/
  | reservedOpcode
  /-- A field the command does not use is not zero (R66). -/
  | reservedField
  deriving DecidableEq, Repr

/-- One line of assembler text (R72) or a pseudo-command (R74), its numbers as written. -/
inductive AsmLine where
  | status
  | init
  | start (v : Nat)
  | byte (b : Nat)
  | final
  | tblrd (v i : Nat)
  /-- `CALC v, b0, ..., bn-1` or `CALC v, "text"` (R74). -/
  | calc (v : Nat) (data : List Nat)
  /-- `NOP` (R74). -/
  | nop
  deriving DecidableEq, Repr

end Sys2Proof
end

