-- ==== Sys2Proof/WellFormed.lean ====
section
/-! DEFINITION. Which terms are well-formed: the operand ranges of R64 for commands (their types already hold them) and
of R72 for assembler lines ("An assembler refuses a number out of range"). -/

namespace Sys2Proof

/-- R64: `VID` is 0..15 and `IMM8` is 0..255. The field types carry these ranges, so every command is well-formed
(`Laws.instr_wellFormed`). -/
def Instr.wellFormed : Instr → Bool
  | .status => true
  | .init => true
  | .start vid => decide (vid.toNat ≤ 15)
  | .byte b => decide (b.toNat ≤ 255)
  | .final => true
  | .tblrd vid i => decide (vid.toNat ≤ 15) && decide (i.toNat ≤ 255)

/-- R72: `v` is 0..15; `b` and `i` are 0..255; a CALC carries only bytes (R74). -/
def AsmLine.wellFormed : AsmLine → Bool
  | .status => true
  | .init => true
  | .start v => decide (v ≤ 15)
  | .byte b => decide (b ≤ 255)
  | .final => true
  | .tblrd v i => decide (v ≤ 15) && decide (i ≤ 255)
  | .calc v data => decide (v ≤ 15) && data.all fun b => decide (b ≤ 255)
  | .nop => true

end Sys2Proof
end

