-- ==== Sys2Proof/Decode.lean ====
section
/-! DEFINITION. Decoding and encoding of command words (30_encoding.md R63 to R68, R72). -/

namespace Sys2Proof

/-- R63: the field `OP`, bits 15:12. -/
def opField (c : Word) : BitVec 4 := c.extractLsb' 12 4

/-- R63: the field `VID`, bits 11:8. -/
def vidField (c : Word) : VidField := c.extractLsb' 8 4

/-- R63: the field `IMM8`, bits 7:0. -/
def immField (c : Word) : Byte := c.extractLsb' 0 8

/-- `Decode` of R68, total on all 65536 words; each rejected word says which rule rejects it. -/
def decode (c : Word) : Except Illegal Instr :=
  if opField c = 0x0#4 then
    if vidField c = 0#4 ∧ immField c = 0#8 then .ok .status else .error .reservedField
  else if opField c = 0x1#4 then
    if vidField c = 0#4 ∧ immField c = 0#8 then .ok .init else .error .reservedField
  else if opField c = 0x2#4 then
    if immField c = 0#8 then .ok (.start (vidField c)) else .error .reservedField
  else if opField c = 0x3#4 then
    if vidField c = 0#4 then .ok (.byte (immField c)) else .error .reservedField
  else if opField c = 0x4#4 then
    if vidField c = 0#4 ∧ immField c = 0#8 then .ok .final else .error .reservedField
  else if opField c = 0x5#4 then
    .ok (.tblrd (vidField c) (immField c))
  else .error .reservedOpcode

/-- The one format of R63: `{OP, VID, IMM8}`. -/
def commandWord (op : BitVec 4) (vid : VidField) (imm : Byte) : Word := op ++ vid ++ imm

/-- The encodings of R65 and R72; a field a command does not use is zero (R66). -/
def encode : Instr → Word
  | .status => commandWord 0x0#4 0#4 0#8
  | .init => commandWord 0x1#4 0#4 0#8
  | .start vid => commandWord 0x2#4 vid 0#8
  | .byte b => commandWord 0x3#4 0#4 b
  | .final => commandWord 0x4#4 0#4 0#8
  | .tblrd vid i => commandWord 0x5#4 vid i

/-- The command word of `nbits` bits numbered as the opcode table numbers them. There is one word of 16 parallel bits
(R43, R63), so its bits are the table's bits; bits at or above `nbits` are zero (log entry 17). -/
def tableWord (nbits w : Nat) : Word := BitVec.ofNat 16 (w % 2 ^ nbits)

/-- What the decoder reads from a table row's word; none where it refuses. -/
def decodeTableWord (nbits w : Nat) : Option Instr :=
  match decode (tableWord nbits w) with
  | .ok i => some i
  | .error _ => none

end Sys2Proof
end

