-- ==== Sys2Proof/Config.lean ====
section
/-! DEFINITION. What an implementation fixes (00_scope.md R4) and the values the spec leaves unspecified
(93_implementation_defined.md U1, U2, U4). -/

namespace Sys2Proof

/-- The implementation parameters of R4. They are fixed at elaboration; `State` carries them as constants so that a
statement about every state covers every build (DESIGN CHOICE, log entry 3, safe). -/
structure Params where
  /-- `ENABLED[7:0]`: bit v = 1 enables variant v (R4). Every value is legal. -/
  enabled : BitVec 8
  /-- `T_INIT`, cycles from INIT's acceptance to its `rsp_valid` (R198); a positive integer, 0 counts as 1. -/
  tInit : Nat
  /-- `T_CMD`, the largest latency of every other word (R198); a positive integer, 0 counts as 1. -/
  tCmd : Nat
  deriving DecidableEq, Repr

/-- FREE VALUE (log entries 7, 10): what table location `loc` holds after the `epoch`-th reset and before INIT writes it.
R25, R190 and U1 leave it unspecified. -/
opaque Config.unspecifiedEntry : (epoch loc : Nat) → Word

/-- FREE VALUE (log entry 6): what `acc` holds after the `epoch`-th reset edge. R24, R190 and U2 leave it unspecified. -/
opaque Config.unspecifiedAcc : (epoch : Nat) → Word

end Sys2Proof
end

