-- ==== Sys2Proof/Machine/State.lean ====
section
/-! DEFINITION. The machine's state as plain data (10_state.md R20 to R25; 30_encoding.md R60, R61, R70), its stops, and
the state right after reset (70_reset_and_hazards.md R190). INVENTORY.md lists every field with its rule. -/

namespace Sys2Proof.Machine

open Sys2Proof

/-- The errors of 60_exceptions.md R161. They are responses, not stops (R160). -/
inductive ErrorKind where
  | unknownVariant
  | notInitialised
  | noActiveCalculation
  | illegalCommand
  deriving DecidableEq, Repr

/-- A response (R70): the triple on `rsp_err`, `rsp_code`, `rsp_data`. -/
structure Response where
  err : Bool
  code : BitVec 3
  data : Word
  deriving DecidableEq, Repr

/-- One record of the registry (40_variant_registry.md R81). -/
structure Variant where
  poly : Word
  init : Word
  refin : Bool
  refout : Bool
  xorout : Word
  deriving DecidableEq, Repr

/-- The command in the engine (R61: at most one): the response it will transfer, and how many edges must still pass
before `rsp_valid` = 1 (R198). `wait = 0` is `rsp_valid` = 1. -/
structure InFlight where
  rsp : Response
  wait : Nat
  deriving DecidableEq, Repr

/-- What the host drives at one rising edge of `clk` (R60, R201). -/
structure HostEdge where
  /-- `rst_n`; false is reset asserted (R190). -/
  rstN : Bool
  /-- `cmd_valid`. -/
  cmdValid : Bool
  /-- `cmd`. -/
  cmd : Word
  /-- `rsp_ready`. -/
  rspReady : Bool
  deriving DecidableEq, Repr

/-- The table memory (20_memory.md R41): pairs of a location number and its 16-bit entry, locations strictly rising
(`Memory.wf`). A location that is not listed has not been written since the last reset. Entries are whole words and
never bytes (R43, R45; log entry 9). -/
abbrev Memory := List (Nat × Word)

/-- Everything the spec gives the machine. The first field is configuration (R20 calls it no state; log entry 3), the
next five are R20's tuple, `flight` is the interface's state (R61); the last four are the model's own (log entries 1,
4, 8, 12). -/
structure State where
  /-- R4: `ENABLED`, `T_INIT`, `T_CMD`. No step changes it. -/
  cfg : Params
  /-- R21. -/
  ready : Bool
  /-- R22. -/
  active : Bool
  /-- R23. -/
  cur : VariantId
  /-- R24. -/
  acc : Word
  /-- R25, R41. -/
  tbl : Memory
  /-- R61: the command in the engine, if any. `none` is `cmd_ready` = 1 (while `rst_n` = 1). -/
  flight : Option InFlight
  /-- What the host drives at the coming edges (R201); log entry 1. -/
  bus : List HostEdge
  /-- The responses transferred so far, oldest first (R200); log entry 12. -/
  taken : List Response
  /-- The realisation's choices of the coming latencies (R198); log entry 4. -/
  pace : List Nat
  /-- How many reset edges there have been; selects the free values after each (log entry 8). -/
  epoch : Nat
  deriving DecidableEq, Repr

/-- Why the machine stops: there is no reason. Errors are responses (R160), every function of the engine is total (R13),
and nothing the host does makes it fault (R201). -/
inductive Fault
  deriving DecidableEq, Repr

/-- Why a step has no meaning. -/
inductive Refusal where
  /-- Raised by an arm of `exec` whose instruction has no meaning yet; no arm of this model raises it. Safe. -/
  | notModelled (mnemonic : String)
  deriving DecidableEq, Repr

/-- The outcome of a step or of a meaning. -/
abbrev Outcome := Host.Outcome State Fault Refusal

/-- The state after reset of a build with parameters `p` (R190): `ready` = `active` = 0, `cur` = 0, nothing in flight,
no table location written. `acc` is unspecified there and 0x0000 here (DESIGN CHOICE, log entry 5, unsafe). The host
drives nothing yet. -/
def State.resetWith (p : Params) : State where
  cfg := p
  ready := false
  active := false
  cur := 0#3
  acc := 0x0000#16
  tbl := []
  flight := none
  bus := []
  taken := []
  pace := []
  epoch := 0

/-- The state after reset of the default build, `ENABLED` = 0xFF (R4); the OPEN latencies are 1 here (DESIGN CHOICE, log
entry 3, unsafe for claims about time). -/
def State.reset : State := State.resetWith { enabled := 0xFF#8, tInit := 1, tCmd := 1 }

end Sys2Proof.Machine
end

