-- ==== Sys2Proof/Machine/Registry.lean ====
section
/-! DEFINITION. The variant registry (40_variant_registry.md R80 to R84): a read-only store of eight constant records. -/

namespace Sys2Proof.Machine

open Sys2Proof

/-- `VAR[v]` of R80, as a function of the id's number; the ids are those of R73. -/
def registryRecord : Nat → Variant
  | 0 => { poly := 0x1021#16, init := 0xFFFF#16, refin := true, refout := true, xorout := 0xFFFF#16 }    -- X25
  | 1 => { poly := 0x1021#16, init := 0x0000#16, refin := true, refout := true, xorout := 0x0000#16 }    -- CCITT
  | 2 => { poly := 0x1021#16, init := 0xFFFF#16, refin := false, refout := false, xorout := 0x0000#16 }  -- CCITT-FALSE
  | 3 => { poly := 0x8005#16, init := 0xFFFF#16, refin := true, refout := true, xorout := 0x0000#16 }    -- MODBUS
  | 4 => { poly := 0x8005#16, init := 0xFFFF#16, refin := true, refout := true, xorout := 0xFFFF#16 }    -- USB
  | 5 => { poly := 0x1021#16, init := 0x0000#16, refin := false, refout := false, xorout := 0x0000#16 }  -- XMODEM
  | 6 => { poly := 0x8005#16, init := 0x0000#16, refin := true, refout := true, xorout := 0x0000#16 }    -- IBM
  | _ => { poly := 0x8005#16, init := 0x0000#16, refin := true, refout := true, xorout := 0xFFFF#16 }    -- MAXIM (7)

/-- `VAR[v]` (R80). Every 3-bit id names a record. -/
def VAR (v : VariantId) : Variant := registryRecord v.toNat

/-- `ENABLED[v]` (R4). -/
def variantEnabled (p : Params) (v : VariantId) : Bool := p.enabled.getLsbD v.toNat

/-- `vid[2:0]`, the id START writes to `cur` (R125). -/
def variantIdOf (vid : VidField) : VariantId := vid.extractLsb' 0 3

/-- `Lookup` of R82: ids 8..15 and disabled variants are `UnknownVariant`. -/
def lookup (p : Params) (vid : VidField) : Except ErrorKind Variant :=
  if 8 ≤ vid.toNat ∨ variantEnabled p (variantIdOf vid) = false then .error .unknownVariant
  else .ok (VAR (variantIdOf vid))

end Sys2Proof.Machine
end

