-- ==== Sys2Proof/Machine/Ops.lean ====
section
/-! DEFINITION. The shared operations: the table memory (20_memory.md R41, R45), a command's response, and the one way an
error is raised (60_exceptions.md R160, R167). -/

namespace Sys2Proof.Machine

open Sys2Proof

/-! ### Table memory -/

/-- The canonical form: locations strictly rising, so equal memories are equal lists. An unlisted location has no value
of its own (it reads as a free value), so every listed entry says something. -/
abbrev Memory.wf (m : Memory) : Prop := m.Pairwise fun a b => a.1 < b.1

/-- The entry listed at `loc`, none where nothing has been written since reset. -/
def Memory.find : Memory → Nat → Option Word
  | [], _ => none
  | (k, e) :: m, loc => if k = loc then some e else Memory.find m loc

/-- Writes one location, keeping the order. -/
def Memory.write (loc : Nat) (e : Word) : Memory → Memory
  | [] => [(loc, e)]
  | (k, e') :: m =>
    if loc < k then (loc, e) :: (k, e') :: m
    else if loc = k then (loc, e) :: m
    else (k, e') :: Memory.write loc e m

/-- The part of `Memory.writeAll` that places one cell: `rest` continues with the cells after it. -/
def Memory.place (k : Nat) (e : Word) (rest : Memory → Memory) : Memory → Memory
  | [] => (k, e) :: rest []
  | (k', e') :: m =>
    if k < k' then (k, e) :: rest ((k', e') :: m)
    else if k = k' then (k, e) :: rest m
    else (k', e') :: Memory.place k e rest m

/-- Writes every cell of `cells`, whose locations rise strictly, over `m` in one pass. On a canonical memory this is the
spec's loop of single writes (stated in Obligations.InitIsTheLoopOfSingleWrites; log entry 11). -/
def Memory.writeAll : List (Nat × Word) → Memory → Memory
  | [], m => m
  | (k, e) :: cells, m => Memory.place k e (Memory.writeAll cells) m

/-- The number of location `(v, i)` of R41: 256 entries to a variant (log entry 9). -/
def tblLoc (v : VariantId) (i : Byte) : Nat := 256 * v.toNat + i.toNat

/-- `TblRead(v, i)` of R11. A location not written since reset holds an unspecified value (R25, U1): a free value, log
entry 7. So does a location INIT never writes, that of a disabled variant (R25; log entry 10). -/
def tblEntry (s : State) (v : VariantId) (i : Byte) : Word :=
  (s.tbl.find (tblLoc v i)).getD (Config.unspecifiedEntry s.epoch (tblLoc v i))

/-! ### Responses -/

/-- `ok(d)` of R70. -/
def Response.ok (d : Word) : Response := { err := false, code := 0b000#3, data := d }

/-- The error codes of R161. -/
def ErrorKind.code : ErrorKind → BitVec 3
  | .unknownVariant => 1#3
  | .notInitialised => 2#3
  | .noActiveCalculation => 3#3
  | .illegalCommand => 4#3

/-- The error response of R70 and R161: `err` = 1, the error's code, `data` = 0x0000. -/
def Response.error (e : ErrorKind) : Response := { err := true, code := e.code, data := 0x0000#16 }

/-- The 20-bit packing of R70: bit 19 `err`, bits 18:16 `code`, bits 15:0 `data`. -/
def Response.pack (r : Response) : BitVec 20 := BitVec.ofBool r.err ++ r.code ++ r.data

/-- INIT's latency `T_INIT` (R198), a positive integer. -/
def initLatency (p : Params) : Nat := max 1 p.tInit

/-- The latency of any other word: the realisation's next choice, kept within 1..`T_CMD` (R198; log entry 4). -/
def cmdLatency (s : State) : Nat :=
  match s.pace with
  | [] => max 1 s.cfg.tCmd
  | n :: _ => min (max 1 n) (max 1 s.cfg.tCmd)

/-- Puts a response in flight: it is valid `cmdLatency` edges after the accepting one (R61, R198; log entries 2, 20). -/
def State.answer (s : State) (r : Response) : State :=
  { s with flight := some { rsp := r, wait := cmdLatency s - 1 }, pace := s.pace.tail }

/-- As `answer`, with INIT's own latency. -/
def State.answerInit (s : State) (r : Response) : State :=
  { s with flight := some { rsp := r, wait := initLatency s.cfg - 1 } }

/-- `respond ok(d)` of R11. -/
def respond (d : Word) (s : State) : Outcome := .next (s.answer (Response.ok d))

/-- `raise E` of R11: the error response is the whole effect (R160), no state element changes (R167). There is no trap
entry and so no return from one (R169, R170). -/
def raise (e : ErrorKind) (s : State) : Outcome := .next (s.answer (Response.error e))

end Sys2Proof.Machine
end

