-- ==== Sys2Proof/Machine/Flags.lean ====
section
/-! DEFINITION. The two status flags (10_state.md R21, R22, R29), the checks BYTE and FINAL make on them
(60_exceptions.md R163, R164, R166), and the status view (10_state.md R30). -/

namespace Sys2Proof.Machine

open Sys2Proof

/-- The checks of BYTE and FINAL in R166's order: `NotInitialised`, then `NoActiveCalculation`. -/
def inCalculation (s : State) (run : Outcome) : Outcome :=
  if s.ready = false then raise .notInitialised s
  else if s.active = false then raise .noActiveCalculation s
  else run

/-- The status view `SV` of R30: `{ENABLED[7:0], 0b000, cur[2:0], active, ready}`. -/
def statusView (s : State) : Word :=
  s.cfg.enabled ++ 0b000#3 ++ s.cur ++ BitVec.ofBool s.active ++ BitVec.ofBool s.ready

end Sys2Proof.Machine
end

