-- ==== Sys2Proof/Machine/BitReversal.lean ====
section
/-! DEFINITION. Bit reversal (43_bit_reversal.md). -/

namespace Sys2Proof.Machine

open Sys2Proof

/-- `BitReverse16` of R150: output bit k is input bit 15-k. -/
def bitReverse16 (x : Word) : Word := BitVec.ofFnLE fun k : Fin 16 => x.getLsbD (15 - k.val)

/-- `BitReverse8` of R152: output bit k is input bit 7-k. No command uses it; the laws of R106 and R129 do. -/
def bitReverse8 (x : Byte) : Byte := BitVec.ofFnLE fun k : Fin 8 => x.getLsbD (7 - k.val)

end Sys2Proof.Machine
end

