-- ==== Sys2Proof/Machine/Operands.lean ====
section
/-! DEFINITION. The operand forms (30_encoding.md R64): a variant id that goes through Lookup (R82) and the ready check
(60_exceptions.md R163), in the order of R166; the byte operand of BYTE and TBLRD is used as it is. -/

namespace Sys2Proof.Machine

open Sys2Proof

/-- The checks of START and TBLRD in R166's order: `UnknownVariant`, then `NotInitialised`; with both passed, the
command runs on the registry record its operand names. -/
def withVariant (vid : VidField) (s : State) (run : Variant → Outcome) : Outcome :=
  match lookup s.cfg vid with
  | .error e => raise e s
  | .ok V => if s.ready then run V else raise .notInitialised s

end Sys2Proof.Machine
end

