-- ==== Sys2Proof/Machine/Tables.lean ====
section
/-! DEFINITION. The table generator, INIT and TBLRD (41_table_builder.md). -/

namespace Sys2Proof.Machine

open Sys2Proof

/-- One step of the reflected branch (R101). -/
def stepRight (rp value : Word) : Word :=
  if value.getLsbD 0 then (value >>> 1) ^^^ rp else value >>> 1

/-- One step of the non-reflected branch (R102); the shift drops bit 15 (R10, R103). -/
def stepLeft (p value : Word) : Word :=
  if value.getLsbD 15 then (value <<< 1) ^^^ p else value <<< 1

/-- `BuildTable(p, refin)[i]` of R100 to R102, a table being its 256 entries by index. -/
def buildTable (p : Word) (refin : Bool) (i : Byte) : Word :=
  if refin then (stepRight (bitReverse16 p))^[8] (i.setWidth 16)
  else (stepLeft p)^[8] (i ++ 0x00#8)

/-- The table of variant `v`'s record. -/
def variantTable (v : VariantId) (i : Byte) : Word := buildTable (VAR v).poly (VAR v).refin i

/-- The cells INIT writes for variant `v` (R104): all 256 of an enabled one, none of a disabled one. -/
def variantCells (p : Params) (v : VariantId) : List (Nat × Word) :=
  if variantEnabled p v then
    (List.range 256).map fun n => (tblLoc v (BitVec.ofNat 8 n), variantTable v (BitVec.ofNat 8 n))
  else []

/-- The cells INIT writes: `for v in 0..7`, `for i in 0..255` (R104). -/
def initCells (p : Params) : List (Nat × Word) :=
  (List.range 8).flatMap fun n => variantCells p (BitVec.ofNat 3 n)

/-- INIT (R104): every enabled table built, `ready` set, nothing else touched; allowed in every state. -/
def execInit (s : State) : Outcome :=
  .next ({ s with tbl := Memory.writeAll (initCells s.cfg) s.tbl, ready := true }.answerInit (Response.ok 0x0000#16))

/-- TBLRD (R105): answers one table entry and writes nothing. -/
def execTblrd (vid : VidField) (i : Byte) (s : State) : Outcome :=
  withVariant vid s fun _ => respond (tblEntry s (variantIdOf vid) i) s

end Sys2Proof.Machine
end

