-- ==== Sys2Proof/Machine/Calculator.lean ====
section
/-! DEFINITION. The calculator, START, BYTE and FINAL (42_calculator.md). -/

namespace Sys2Proof.Machine

open Sys2Proof

/-- `Seed` of R120. -/
def seed (V : Variant) : Word := if V.refin then bitReverse16 V.init else V.init

/-- The table index an update uses (R121, R122): a byte of the register, exclusive-ORed with the message byte. -/
def tableIndex (refin : Bool) (a : Word) (b : Byte) : Byte :=
  if refin then a.extractLsb' 0 8 ^^^ b else a.extractLsb' 8 8 ^^^ b

/-- `Update(refin, T, a, b)` of R121 and R122. -/
def update (refin : Bool) (T : Byte → Word) (a : Word) (b : Byte) : Word :=
  if refin then (a >>> 8) ^^^ T (tableIndex true a b)
  else (a.extractLsb' 0 8 ++ 0x00#8) ^^^ T (tableIndex false a b)

/-- `Finalize` of R123. -/
def finalize (V : Variant) (a : Word) : Word :=
  (if V.refout ≠ V.refin then bitReverse16 a else a) ^^^ V.xorout

/-- `Calculate` of R124. -/
def calculate (V : Variant) (data : List Byte) : Word :=
  finalize V (data.foldl (update V.refin (buildTable V.poly V.refin)) (seed V))

/-- One byte of `Ref` (R129). -/
def refByte (V : Variant) (c : Word) (b : Byte) : Word :=
  (stepLeft V.poly)^[8] (c ^^^ ((if V.refin then bitReverse8 b else b) ++ 0x00#8))

/-- The bit-serial reference `Ref` of R129, informative: no command uses it. -/
def refCalculate (V : Variant) (data : List Byte) : Word :=
  let c := data.foldl (refByte V) V.init
  (if V.refout then bitReverse16 c else c) ^^^ V.xorout

/-- START (R125). -/
def execStart (vid : VidField) (s : State) : Outcome :=
  withVariant vid s fun V =>
    respond 0x0000#16 { s with cur := variantIdOf vid, acc := seed V, active := true }

/-- BYTE (R126), total (R13). `tbl[cur]` exists whenever a calculation is in progress in a reachable state (R26, I-1);
where it does not, the spec gives no value for the entry read, and `tblEntry` answers a free value (DESIGN CHOICE, log
entry 10). -/
def execByte (b : Byte) (s : State) : Outcome :=
  inCalculation s (respond 0x0000#16 { s with acc := update (VAR s.cur).refin (tblEntry s s.cur) s.acc b })

/-- FINAL (R127): answers the checksum and clears `active`; `acc` and `cur` keep their values. -/
def execFinal (s : State) : Outcome :=
  inCalculation s (respond (finalize (VAR s.cur) s.acc) { s with active := false })

end Sys2Proof.Machine
end

