-- ==== Sys2Proof/Machine/Status.lean ====
section
/-! DEFINITION. The STATUS command (40_variant_registry.md R85). -/

namespace Sys2Proof.Machine

open Sys2Proof

/-- STATUS (R85): answers the status view, in every state, and writes nothing. -/
def execStatus (s : State) : Outcome := respond (statusView s) s

end Sys2Proof.Machine
end

