-- ==== Sys2Proof/Machine/Dispatch.lean ====
section
/-! DEFINITION. One arm for each command (30_encoding.md R69). -/

namespace Sys2Proof.Machine

open Sys2Proof

def exec (i : Instr) (s : State) : Host.Outcome State Fault Refusal :=
  match i with
  | .status => Sys2Proof.Machine.execStatus s
  | .init => Sys2Proof.Machine.execInit s
  | .start vid => Sys2Proof.Machine.execStart vid s
  | .byte b => Sys2Proof.Machine.execByte b s
  | .final => Sys2Proof.Machine.execFinal s
  | .tblrd vid idx => Sys2Proof.Machine.execTblrd vid idx s

end Sys2Proof.Machine
end

