-- ==== Sys2Proof/Machine/Edge.lean ====
section
/-! DEFINITION. One rising edge of `clk` (30_encoding.md R60, R61, R69; 70_reset_and_hazards.md R190, R191, R196, R198). -/

namespace Sys2Proof.Machine

open Sys2Proof

/-- What the host drives when nothing is listed: no reset, no command, no response taken (log entry 1). -/
def HostEdge.idle : HostEdge := { rstN := true, cmdValid := false, cmd := 0x0000#16, rspReady := false }

/-- What the host drives at the coming edge. -/
def State.edge (s : State) : HostEdge := s.bus.headD HostEdge.idle

/-- The state with the coming edge's drive used up. -/
def State.nextEdge (s : State) : State := { s with bus := s.bus.tail }

/-- `rsp_valid` as the engine would drive it out of reset (R61): a response is in flight and its latency has passed. -/
def State.rspValid (s : State) : Bool :=
  match s.flight with
  | some f => f.wait == 0
  | none => false

/-- The output pins (R60). While `rst_n` = 0, `cmd_ready` and `rsp_valid` are 0 (R190). `rsp` has no value while
`rsp_valid` = 0 (log entry 13). -/
structure Pins where
  cmdReady : Bool
  rspValid : Bool
  rsp : Option Response
  deriving DecidableEq, Repr

/-- The output pins at the coming edge, with the host driving `rst_n` as it does there. -/
def State.pins (s : State) : Pins where
  cmdReady := s.edge.rstN && s.flight.isNone
  rspValid := s.edge.rstN && s.rspValid
  rsp := if s.edge.rstN && s.rspValid then s.flight.map (·.rsp) else none

/-- The reset event (R190): flags and `cur` cleared; `acc` and every table location unspecified (free values, log entries
6 and 7); the command in the engine abandoned and a waiting response dropped (R191). -/
def State.resetEvent (s : State) : State :=
  { s with
    ready := false
    active := false
    cur := 0#3
    acc := Config.unspecifiedAcc (s.epoch + 1)
    tbl := []
    flight := none
    epoch := s.epoch + 1 }

/-- The response transferred to the host (R61): `cmd_ready` is 1 again after this edge. -/
def State.transfer (s : State) (r : Response) : State :=
  { s with flight := none, taken := s.taken ++ [r] }

/-- One more edge of the latency passed (R198). -/
def State.countDown (s : State) (r : Response) (n : Nat) : State :=
  { s with flight := some { rsp := r, wait := n } }

/-- `Step` of R69 on the word accepted: an ILLEGAL word is answered with `IllegalCommand` (R165), a command runs. -/
def accept (c : Word) (s : State) : Outcome :=
  match decode c with
  | .error _ => raise .illegalCommand s
  | .ok i => exec i s

/-- An edge at which the engine is idle (`cmd_ready` = 1): a valid command is accepted (R61), else nothing happens
(R177). -/
def idleEdge (e : HostEdge) (s : State) : Outcome :=
  if e.cmdValid then accept e.cmd s else .next s

/-- An edge with a command in the engine: its latency passes, then the response waits for `rsp_ready` (R61, R196). -/
def busyEdge (e : HostEdge) (f : InFlight) (s : State) : Outcome :=
  match f.wait with
  | 0 => if e.rspReady then .next (s.transfer f.rsp) else .next s
  | n + 1 => .next (s.countDown f.rsp n)

/-- One rising edge of `clk`: reset first (R190), else the handshake of R61. -/
def clockEdge (s : State) : Outcome :=
  if s.edge.rstN = false then .next s.nextEdge.resetEvent
  else match s.flight with
    | none => idleEdge s.edge s.nextEdge
    | some f => busyEdge s.edge f s.nextEdge

end Sys2Proof.Machine
end

