-- ==== Sys2Proof/Machine/Step.lean ====
section
/-! DEFINITION. The step, one rising edge of `clk`, and the placing of one command word where the next step takes it. -/

namespace Sys2Proof.Machine

open Sys2Proof

/-- One rising edge of `clk` (R60 to R62; log entry 1). -/
def step (s : State) : Host.Outcome State Fault Refusal := clockEdge s

/-- `s` with the host driving this command word at the very next edge and the engine ready to accept it: `rst_n` = 1,
`cmd_valid` = 1, nothing in flight (R61). This is all an acceptance takes; the other fields stay (log entry 14). -/
def State.withFetchWord (s : State) (nbits w : Nat) : State :=
  { s with
    bus := { rstN := true, cmdValid := true, cmd := tableWord nbits w, rspReady := false } :: s.bus
    flight := none }

end Sys2Proof.Machine
end

