-- ==== Sys2Proof/Machine/Assembler.lean ====
section
/-! DEFINITION. The assembler of 30_encoding.md section 4: variant names (R73), pseudo-commands (R74), encodings and the
text form of a line (R72). No part of the engine uses it; corner cases the spec does not settle are in log entry 15. -/

namespace Sys2Proof.Machine

open Sys2Proof

/-- The commands a line stands for (R72, R74). -/
def AsmLine.expand : AsmLine → List Instr
  | .status => [.status]
  | .init => [.init]
  | .start v => [.start (BitVec.ofNat 4 v)]
  | .byte b => [.byte (BitVec.ofNat 8 b)]
  | .final => [.final]
  | .tblrd v i => [.tblrd (BitVec.ofNat 4 v) (BitVec.ofNat 8 i)]
  | .calc v data => .start (BitVec.ofNat 4 v) :: data.map (fun b => .byte (BitVec.ofNat 8 b)) ++ [.final]
  | .nop => [.status]

/-- The words of a line; none where a number is out of range (R72: "An assembler refuses a number out of range"). -/
def assemble (l : AsmLine) : Option (List Word) :=
  if l.wellFormed then some ((AsmLine.expand l).map encode) else none

/-- The variant names of R73, in capitals. -/
def variantNames : List (String × Nat) :=
  [("X25", 0), ("CCITT", 1), ("CCITT-FALSE", 2), ("CCITT_FALSE", 2), ("MODBUS", 3), ("USB", 4), ("XMODEM", 5),
    ("IBM", 6), ("MAXIM", 7)]

/-- A token of a line: a word in capitals, a comma, a character in single quotes, a text in double quotes. -/
inductive AsmToken where
  | word (cs : List Char)
  | comma
  | chr (n : Nat)
  | text (cs : List Nat)
  deriving DecidableEq, Repr

/-- Ends the word being read, if any; `cur` holds it reversed and `acc` the tokens before it, last first. -/
def flushWord (cur : List Char) (acc : List AsmToken) : List AsmToken :=
  match cur with
  | [] => acc
  | _ :: _ => .word cur.reverse :: acc

/-- The tokens of a line. `str` holds the text being read (reversed) while inside double quotes. A `;` outside quotes
starts the comment; only ASCII codes stand in quotes (R14, R72). -/
def tokens : List Char → Option (List Nat) → List Char → List AsmToken → Option (List AsmToken)
  | [], none, cur, acc => some (flushWord cur acc).reverse
  | [], some _, _, _ => none
  | '"' :: cs, some str, cur, acc => tokens cs none cur (.text str.reverse :: acc)
  | c :: cs, some str, cur, acc => if c.toNat < 128 then tokens cs (some (c.toNat :: str)) cur acc else none
  | ';' :: _, none, cur, acc => some (flushWord cur acc).reverse
  | '"' :: cs, none, cur, acc => tokens cs (some []) [] (flushWord cur acc)
  | '\'' :: c :: '\'' :: cs, none, cur, acc =>
    if c.toNat < 128 then tokens cs none [] (.chr c.toNat :: flushWord cur acc) else none
  | ',' :: cs, none, cur, acc => tokens cs none [] (.comma :: flushWord cur acc)
  | c :: cs, none, cur, acc =>
    if c = ' ' ∨ c = '\t' ∨ c = '\r' then tokens cs none [] (flushWord cur acc)
    else if c.isAlphanum ∨ c = '-' ∨ c = '_' then tokens cs none (c.toUpper :: cur) acc
    else none

/-- The value of one digit in base 16, letters in capitals. -/
def digitValue (c : Char) : Option Nat :=
  if c.isDigit then some (c.toNat - '0'.toNat)
  else if 'A' ≤ c ∧ c ≤ 'F' then some (c.toNat - 'A'.toNat + 10)
  else none

/-- Digits in base `base`, most significant first. -/
def digitsValue (base : Nat) : List Char → Nat → Option Nat
  | [], n => some n
  | c :: cs, n =>
    match digitValue c with
    | some d => if d < base then digitsValue base cs (base * n + d) else none
    | none => none

/-- A number token: decimal, hexadecimal or a character (R72). -/
def numberOf : AsmToken → Option Nat
  | .chr n => some n
  | .word ('0' :: 'X' :: c :: cs) => digitsValue 16 (c :: cs) 0
  | .word (c :: cs) => digitsValue 10 (c :: cs) 0
  | _ => none

/-- A variant operand: a name of R73 or a number (R72). -/
def variantOf : AsmToken → Option Nat
  | .word cs =>
    match variantNames.find? fun e => e.1.toList == cs with
    | some e => some e.2
    | none => numberOf (.word cs)
  | t => numberOf t

/-- The byte operands of CALC, each after a comma. With no bytes (R74, n = 0) nothing follows the variant, not even a
comma (DESIGN CHOICE, log entry 15). -/
def byteList : List AsmToken → Option (List Nat)
  | [] => some []
  | .comma :: t :: ts =>
    match numberOf t, byteList ts with
    | some n, some ns => some (n :: ns)
    | _, _ => none
  | _ => none

/-- A line's form, from its mnemonic and operand tokens (R72, R74). The number form of CALC with n = 0 is `CALC v`, and
`CALC v,` is refused (DESIGN CHOICE, log entry 15). -/
def lineOf (m : String) (ts : List AsmToken) : Option AsmLine :=
  match m, ts with
  | "STATUS", [] => some .status
  | "INIT", [] => some .init
  | "FINAL", [] => some .final
  | "NOP", [] => some .nop
  | "START", [v] => (variantOf v).map .start
  | "BYTE", [b] => (numberOf b).map .byte
  | "TBLRD", [v, .comma, i] =>
    match variantOf v, numberOf i with
    | some v, some i => some (.tblrd v i)
    | _, _ => none
  | "CALC", [v, .comma, .text bs] => (variantOf v).map fun v => .calc v bs
  | "CALC", v :: ts =>
    match variantOf v, byteList ts with
    | some v, some bs => some (.calc v bs)
    | _, _ => none
  | _, _ => none

/-- The words of one line of text: none where it is no line of R72; no words for an empty or comment line. -/
def assembleText (line : String) : Option (List Word) :=
  match tokens line.toList none [] [] with
  | none => none
  | some [] => some []
  | some (.word m :: ts) => (lineOf (String.ofList m) ts).bind assemble
  | some (_ :: _) => none

/-- A program: one command to a line (R72). -/
def assembleLines : List String → Option (List Word)
  | [] => some []
  | l :: ls =>
    match assembleText l, assembleLines ls with
    | some ws, some wss => some (ws ++ wss)
    | _, _ => none

end Sys2Proof.Machine
end

