-- ==== Sys2Proof/Machine/Transaction.lean ====
section
/-! DEFINITION. The transaction-level view (30_encoding.md R62, R69; 20_memory.md R48): one accepted command is one
application of `Step`, and its response is the one the block transfers. Time and the handshake are left out here; the
statements relate this view to the clock edges of Step.lean. -/

namespace Sys2Proof.Machine

open Sys2Proof

/-- `Step : State × Word16 → State × Response` (R62): the command accepted and its response transferred at once. It is
never none (R13; stated in Obligations.StepIsTotal). -/
def transact (c : Word) (s : State) : Option (State × Response) :=
  match accept c s with
  | .next t =>
    match t.flight with
    | some f => some ({ t with flight := none }, f.rsp)
    | none => none
  | .fault _ => none
  | .refused _ => none

/-- The fold of `Step` over a sequence of command words (R48), with the responses in order (R200). -/
def transactAll : List Word → State → Option (State × List Response)
  | [], s => some (s, [])
  | c :: cs, s =>
    match transact c s with
    | none => none
    | some (t, r) =>
      match transactAll cs t with
      | none => none
      | some (u, rs) => some (u, r :: rs)

end Sys2Proof.Machine
end

