-- ==== Sys2Proof/Safety.lean ====
section
/-! DEFINITION. What counts as a safe state and a safe run, and the relations claims use: the invariants of 10_state.md
R26, and what one command leaves unchanged. -/

namespace Sys2Proof.Machine

open Sys2Proof

/-- R70, R161: success has code 0; an error has a code 1..4 and data 0x0000. Codes 5..7 never occur (U9). -/
def Response.wf (r : Response) : Bool :=
  if r.err then decide (1 ≤ r.code.toNat) && decide (r.code.toNat ≤ 4) && decide (r.data = 0x0000#16)
  else decide (r.code = 0#3)

/-- (I-1) of R26. -/
def State.ActiveIsReady (s : State) : Prop :=
  s.active = true → s.ready = true ∧ variantEnabled s.cfg s.cur = true

/-- (I-2) of R26: once `ready`, every location of an enabled table has been written and holds its built entry. -/
def State.TablesBuilt (s : State) : Prop :=
  s.ready = true → ∀ v i, variantEnabled s.cfg v = true →
    s.tbl.find (tblLoc v i) = some (buildTable (VAR v).poly (VAR v).refin i)

/-- The invariant of the machine: R26's two, the canonical form of the table memory, no table for a disabled variant
(R25, R84), and only responses of R70's form in flight or taken. -/
structure State.Inv (s : State) : Prop where
  activeIsReady : s.ActiveIsReady
  tablesBuilt : s.TablesBuilt
  memoryWf : Memory.wf s.tbl
  onlyEnabledTables : ∀ c ∈ s.tbl, ∃ v i, c.1 = tblLoc v i ∧ variantEnabled s.cfg v = true
  flightWf : ∀ f, s.flight = some f → f.rsp.wf = true
  takenWf : ∀ r ∈ s.taken, r.wf = true

/-- A safe run: no number of clock edges stops the machine. -/
def State.NeverStops (s : State) : Prop :=
  ∀ n, ∃ t, Host.Core.run Sys2Proof.core n s = .next t

/-- The coming edge accepts command word `c` (R61). -/
def State.Accepts (s : State) (c : Word) : Prop :=
  s.edge.rstN = true ∧ s.edge.cmdValid = true ∧ s.edge.cmd = c ∧ s.flight = none

/-- The coming edge is a reset edge (R190). -/
def State.Resets (s : State) : Prop := s.edge.rstN = false

/-- Every table location reads as before. -/
def SameTables (s t : State) : Prop := ∀ v i, tblEntry t v i = tblEntry s v i

/-- R20's tuple is unchanged, the table memory as it is held and as it reads, and so is the configuration. -/
def SameEngine (s t : State) : Prop :=
  t.ready = s.ready ∧ t.active = s.active ∧ t.cur = s.cur ∧ t.acc = s.acc ∧ t.tbl = s.tbl ∧ SameTables s t ∧
    t.cfg = s.cfg ∧ t.epoch = s.epoch

/-- The command is answered with `r` (R61, R70), and nothing outside R20's tuple changes but the response in flight (and
`pace`, which only chooses latencies). -/
def Answers (s t : State) (r : Response) : Prop :=
  t.flight.map (·.rsp) = some r ∧ t.bus = s.bus ∧ t.taken = s.taken ∧ t.cfg = s.cfg ∧ t.epoch = s.epoch

end Sys2Proof.Machine
end

