-- ==== Sys2Proof/Certificates/Slice0/Obligations.lean ====
section
/-! DEFINITION. The statements for the provers. Each docstring names the rule of spec/ it formalises. -/

open Sys2Proof Sys2Proof.Machine

/-! ### Encoding and decoding -/

/-- R65, R66 and vectors 2.8: words written out from the encodings decode as the spec says. -/
def Obligations.WrittenOutWordsDecode : Prop :=
  decode 0x0000#16 = .ok .status ∧ decode 0x1000#16 = .ok .init ∧ decode 0x2700#16 = .ok (.start 7#4) ∧
  decode 0x2F00#16 = .ok (.start 15#4) ∧ decode 0x3031#16 = .ok (.byte 0x31#8) ∧ decode 0x4000#16 = .ok .final ∧
  decode 0x5380#16 = .ok (.tblrd 3#4 0x80#8) ∧ decode 0x0001#16 = .error .reservedField ∧
  decode 0x2301#16 = .error .reservedField ∧ decode 0x3100#16 = .error .reservedField ∧
  decode 0x6000#16 = .error .reservedOpcode ∧ decode 0xFFFF#16 = .error .reservedOpcode

/-- R65, R72: decoding the encoding of any well-formed command gives it back, at every operand value. -/
def Obligations.DecodeOfEncodeIsTheCommand : Prop :=
  ∀ i : Instr, i.wellFormed = true → decode (encode i) = .ok i

/-- R66, R68: a word that decodes to a command is that command's only encoding. -/
def Obligations.EncodeOfDecodeIsTheWord : Prop :=
  ∀ (c : Word) (i : Instr), decode c = .ok i → encode i = c

/-- R65: a word encodes a command exactly when it matches that command's row of the opcode map. -/
def Obligations.DecodeFollowsMatchAndMask : Prop :=
  ∀ c : Word,
    (decode c = .ok .status ↔ c &&& 0xFFFF#16 = 0x0000#16) ∧
    (decode c = .ok .init ↔ c &&& 0xFFFF#16 = 0x1000#16) ∧
    ((∃ vid, decode c = .ok (.start vid)) ↔ c &&& 0xF0FF#16 = 0x2000#16) ∧
    ((∃ b, decode c = .ok (.byte b)) ↔ c &&& 0xFF00#16 = 0x3000#16) ∧
    (decode c = .ok .final ↔ c &&& 0xFFFF#16 = 0x4000#16) ∧
    ((∃ vid i, decode c = .ok (.tblrd vid i)) ↔ c &&& 0xF000#16 = 0x5000#16) ∧
    ((∃ r, decode c = .error r) ↔
      c &&& 0xFFFF#16 ≠ 0x0000#16 ∧ c &&& 0xFFFF#16 ≠ 0x1000#16 ∧ c &&& 0xF0FF#16 ≠ 0x2000#16 ∧
      c &&& 0xFF00#16 ≠ 0x3000#16 ∧ c &&& 0xFFFF#16 ≠ 0x4000#16 ∧ c &&& 0xF000#16 ≠ 0x5000#16)

/-- R63, R64: the operands are the fields 11:8 and 7:0, read as unsigned numbers. -/
def Obligations.OperandsAreTheWordsFields : Prop :=
  ∀ c : Word,
    (∀ vid, decode c = .ok (.start vid) → vid.toNat = c.toNat / 256 % 16) ∧
    (∀ b, decode c = .ok (.byte b) → b.toNat = c.toNat % 256) ∧
    (∀ vid i, decode c = .ok (.tblrd vid i) → vid.toNat = c.toNat / 256 % 16 ∧ i.toNat = c.toNat % 256)

/-- R165: a reserved opcode or a non-zero reserved field raises IllegalCommand in every state, before any other check,
and changes nothing. -/
def Obligations.ReservedWordsRaiseIllegalCommand : Prop :=
  ∀ (c : Word) (s : State),
    (6 ≤ c.toNat / 4096 ∨
      ((c.toNat / 4096 = 0 ∨ c.toNat / 4096 = 1 ∨ c.toNat / 4096 = 4) ∧ c.toNat % 4096 ≠ 0) ∨
      (c.toNat / 4096 = 2 ∧ c.toNat % 256 ≠ 0) ∨
      (c.toNat / 4096 = 3 ∧ c.toNat / 256 % 16 ≠ 0)) →
    (∃ r, decode c = .error r) ∧
    ∃ t, accept c s = .next t ∧ Answers s t { err := true, code := 4#3, data := 0x0000#16 } ∧ SameEngine s t

/-- R70: the 20-bit packing of a response. -/
def Obligations.ResponsePacksErrCodeData : Prop :=
  ∀ r : Response, r.pack.getLsbD 19 = r.err ∧ r.pack.extractLsb' 16 3 = r.code ∧ r.pack.extractLsb' 0 16 = r.data

/-- R72, R74: what the assembler makes of each form, and that it refuses a number out of range. -/
def Obligations.AssemblerEncodesEachForm : Prop :=
  assemble .status = some [0x0000#16] ∧ assemble .init = some [0x1000#16] ∧ assemble .final = some [0x4000#16] ∧
  assemble .nop = some [0x0000#16] ∧
  (∀ v, v ≤ 15 → assemble (.start v) = some [BitVec.ofNat 16 (0x2000 + v * 256)]) ∧
  (∀ b, b ≤ 255 → assemble (.byte b) = some [BitVec.ofNat 16 (0x3000 + b)]) ∧
  (∀ v i, v ≤ 15 → i ≤ 255 → assemble (.tblrd v i) = some [BitVec.ofNat 16 (0x5000 + v * 256 + i)]) ∧
  (∀ v data, v ≤ 15 → (∀ b ∈ data, b ≤ 255) →
    assemble (.calc v data) =
      some (BitVec.ofNat 16 (0x2000 + v * 256) :: data.map (fun b => BitVec.ofNat 16 (0x3000 + b)) ++ [0x4000#16])) ∧
  (∀ v, 15 < v → assemble (.start v) = none) ∧ (∀ b, 255 < b → assemble (.byte b) = none) ∧
  (∀ v i, 15 < v ∨ 255 < i → assemble (.tblrd v i) = none) ∧
  (∀ v data, 15 < v ∨ (∃ b ∈ data, 255 < b) → assemble (.calc v data) = none)

/-! ### Clock edges, handshake, reset -/

/-- R61, R69: an edge that accepts a word which decodes to `i` is `exec i` at that state with the edge's drive used up.
The next one says the same of the placed word.
That the effect falls on the accepting edge is the model's choice (DEDUCED, log entry 2). -/
def Obligations.StepRunsTheDecodedCommand : Prop :=
  ∀ (s : State) (c : Word) (i : Instr) (rspReady : Bool) (rest : List HostEdge),
    s.flight = none →
    s.bus = { rstN := true, cmdValid := true, cmd := c, rspReady := rspReady } :: rest →
    decode c = .ok i →
    step s = exec i { s with bus := rest }

/-- R61, R69, log entry 14: the word `withFetchWord` places is the one the next step runs; an illegal word is answered
by that step with code 4. -/
def Obligations.PlacedWordRunsNext : Prop :=
  ∀ (s : State) (w : Nat),
    (∀ i, decodeTableWord 16 w = some i → step (s.withFetchWord 16 w) = exec i { s with flight := none }) ∧
    (decodeTableWord 16 w = none →
      ∃ t, step (s.withFetchWord 16 w) = .next t ∧
        t.flight.map (·.rsp) = some { err := true, code := 4#3, data := 0x0000#16 } ∧ SameEngine s t)

/-- R61, R196: what the other edges with `rst_n` = 1 do. Nothing happens to an idle engine without a command; a latency
passes; a waiting response is held until `rsp_ready` and then transferred, once, and in order.
That a latency of L takes L - 1 such countdown edges is the model's choice (DEDUCED, log entry 20). -/
def Obligations.HandshakeEdges : Prop :=
  ∀ (s : State) (e : HostEdge) (rest : List HostEdge), s.bus = e :: rest → e.rstN = true →
    (s.flight = none → e.cmdValid = false → step s = .next { s with bus := rest }) ∧
    (∀ r n, s.flight = some { rsp := r, wait := n + 1 } →
      step s = .next { s with bus := rest, flight := some { rsp := r, wait := n } }) ∧
    (∀ r, s.flight = some { rsp := r, wait := 0 } → e.rspReady = false → step s = .next { s with bus := rest }) ∧
    (∀ r, s.flight = some { rsp := r, wait := 0 } → e.rspReady = true →
      step s = .next { s with bus := rest, flight := none, taken := s.taken ++ [r] })

/-- R60, R61, R190: the output pins. `cmd_ready` is 1 exactly when nothing is in the engine, `rsp_valid` exactly when a
response waits, and both are 0 under reset. The last clause, that the response pins have no value while `rsp_valid` is 0,
is the model's choice (DESIGN CHOICE, log entry 13). -/
def Obligations.PinsFollowTheHandshake : Prop :=
  ∀ s : State,
    (s.pins.cmdReady = true ↔ s.edge.rstN = true ∧ s.flight = none) ∧
    (s.pins.rspValid = true ↔ s.edge.rstN = true ∧ ∃ r, s.flight = some { rsp := r, wait := 0 }) ∧
    (∀ r, s.edge.rstN = true → s.flight = some { rsp := r, wait := 0 } → s.pins.rsp = some r) ∧
    (s.pins.rspValid = false → s.pins.rsp = none)

/-- R190, R191: a reset edge, in any state. What it leaves of `acc` and `tbl` is unspecified and not said. -/
def Obligations.ResetEdgeClearsTheEngine : Prop :=
  ∀ (s : State) (e : HostEdge) (rest : List HostEdge), s.bus = e :: rest → e.rstN = false →
    s.pins.cmdReady = false ∧ s.pins.rspValid = false ∧
    ∃ t, step s = .next t ∧ t.ready = false ∧ t.active = false ∧ t.cur = 0#3 ∧ t.flight = none ∧ t.cfg = s.cfg ∧
      t.taken = s.taken ∧ t.bus = rest ∧ ((rest.headD HostEdge.idle).rstN = true → t.pins.cmdReady = true)

/-- R4, R21 to R23, R190, R192: what the spec gives the state after reset, for every build, and the default build. The
values of `acc`, `tbl`, `bus`, `taken`, `pace` and `epoch` there are the model's and are not said. -/
def Obligations.ResetStateIsTheSpecs : Prop :=
  (∀ p : Params, (State.resetWith p).ready = false ∧ (State.resetWith p).active = false ∧
    (State.resetWith p).cur = 0#3 ∧ (State.resetWith p).flight = none ∧ (State.resetWith p).cfg = p ∧
    statusView (State.resetWith p) = p.enabled.setWidth 16 <<< 8) ∧
  State.reset.cfg.enabled = 0xFF#8 ∧ statusView State.reset = 0xFF00#16

/-- R198: INIT's latency is `T_INIT`, any other word's at most `T_CMD`. How edges are counted is the model's choice: a
latency of L starts `wait` at L - 1 (DEDUCED, log entry 20), and a parameter value of 0 counts as 1 (DESIGN CHOICE, log
entry 3). -/
def Obligations.LatenciesKeepTheirParameters : Prop :=
  ∀ (c : Word) (s t : State) (f : InFlight), accept c s = .next t → t.flight = some f →
    (c = 0x1000#16 → f.wait + 1 = max 1 s.cfg.tInit) ∧ (c ≠ 0x1000#16 → f.wait + 1 ≤ max 1 s.cfg.tCmd)

/-- R198, R199: after an accepting edge and then as many edges as the latency bound less one, with `rst_n` = 1 and no
response taken, the response is valid, whatever else the host drives. The model's choices in it: a latency of L makes
`rsp_valid` 1 from the L-th edge after the accepting one on (DEDUCED, log entry 20), and a parameter value of 0 counts as
1 (DESIGN CHOICE, log entry 3). -/
def Obligations.AcceptedCommandIsAnsweredInTime : Prop :=
  ∀ (s : State) (c : Word) (e : HostEdge) (es rest : List HostEdge), s.flight = none →
    s.bus = e :: es ++ rest → e.rstN = true → e.cmdValid = true → e.cmd = c →
    (∀ e' ∈ es, e'.rstN = true ∧ e'.rspReady = false) →
    es.length = (if c = 0x1000#16 then max 1 s.cfg.tInit else max 1 s.cfg.tCmd) - 1 →
    ∃ t, Host.Core.run core (1 + es.length) s = .next t ∧ t.rspValid = true ∧ t.taken = s.taken

/-- R62: no edge without an accepted command or a reset changes the engine's tuple. R62 speaks of transactions. That the
edges after an acceptance change nothing either, as while INIT is in flight, is the model's choice: a command's effects
are complete at its accepting edge (DEDUCED, log entry 2). -/
def Obligations.OnlyCommandsAndResetTouchTheEngine : Prop :=
  ∀ s t : State, step s = .next t → ¬ s.Resets → (∀ c, ¬ s.Accepts c) → SameEngine s t

/-- R61, R62, R200: however long the host makes a response wait, the edges from a command's acceptance to its transfer
do to the engine and to the responses exactly what one transaction does. The latency is `T_INIT` for INIT, else the
realisation's choice (DESIGN CHOICE, log entry 4). The number of edges before the transfer rests on the model's counting
(DEDUCED, log entry 20, and log entry 3 for a parameter value of 0). -/
def Obligations.HandshakeRefinesTheTransaction : Prop :=
  ∀ (s t : State) (c : Word) (r : Response) (e last : HostEdge) (during stalled rest : List HostEdge),
    s.flight = none → transact c s = some (t, r) →
    s.bus = e :: (during ++ stalled ++ last :: rest) →
    e.rstN = true → e.cmdValid = true → e.cmd = c →
    during.length = (if c = 0x1000#16 then initLatency s.cfg else cmdLatency s) - 1 →
    (∀ e' ∈ during, e'.rstN = true) → (∀ e' ∈ stalled, e'.rstN = true ∧ e'.rspReady = false) →
    last.rstN = true → last.rspReady = true →
    Host.Core.run core (1 + during.length + stalled.length + 1) s =
      .next { t with bus := rest, taken := s.taken ++ [r] }

/-! ### Who writes what (10_state.md R20) -/

/-- R4, R20, R83: no edge changes the configuration. -/
def Obligations.ConfigurationIsConstant : Prop :=
  ∀ s t : State, step s = .next t → t.cfg = s.cfg

/-- R21: only INIT sets `ready`, only reset clears it.
That the effect falls on the accepting edge is the model's choice (DEDUCED, log entry 2). -/
def Obligations.OnlyInitSetsReadyOnlyResetClearsIt : Prop :=
  ∀ s t : State, step s = .next t →
    (s.ready = false → t.ready = true → s.Accepts 0x1000#16) ∧ (s.ready = true → t.ready = false → s.Resets)

/-- R20, R22: only START sets `active`; only FINAL and reset clear it.
That the effect falls on the accepting edge is the model's choice (DEDUCED, log entry 2). -/
def Obligations.OnlyStartSetsActive : Prop :=
  ∀ s t : State, step s = .next t →
    (s.active = false → t.active = true → ∃ vid : VidField, s.Accepts (0x2000#16 + vid.setWidth 16 <<< 8)) ∧
    (s.active = true → t.active = false → s.Resets ∨ s.Accepts 0x4000#16)

/-- R23: only START and reset write `cur`; START writes the id it names.
That the effect falls on the accepting edge is the model's choice (DEDUCED, log entry 2). -/
def Obligations.OnlyStartAndResetWriteCur : Prop :=
  ∀ s t : State, step s = .next t → t.cur ≠ s.cur →
    s.Resets ∨ ∃ vid : VidField, s.Accepts (0x2000#16 + vid.setWidth 16 <<< 8) ∧ t.cur.toNat = vid.toNat

/-- R20, R24: only START and BYTE (and reset) write `acc`.
That the effect falls on the accepting edge is the model's choice (DEDUCED, log entry 2). -/
def Obligations.OnlyStartAndByteWriteAcc : Prop :=
  ∀ s t : State, step s = .next t → t.acc ≠ s.acc →
    s.Resets ∨ (∃ vid : VidField, s.Accepts (0x2000#16 + vid.setWidth 16 <<< 8)) ∨
      ∃ b : Byte, s.Accepts (0x3000#16 + b.setWidth 16)

/-- R25: only INIT (and reset) changes a table entry, and INIT none of a disabled variant.
That the effect falls on the accepting edge is the model's choice (DEDUCED, log entry 2). -/
def Obligations.OnlyInitWritesTables : Prop :=
  ∀ (s t : State) (v : VariantId) (i : Byte), step s = .next t → tblEntry t v i ≠ tblEntry s v i →
    s.Resets ∨ (s.Accepts 0x1000#16 ∧ variantEnabled s.cfg v = true)

/-! ### Errors -/

/-- R82: `Lookup`. -/
def Obligations.LookupRefusesUnknownAndDisabled : Prop :=
  ∀ (p : Params) (vid : VidField),
    (8 ≤ vid.toNat ∨ p.enabled.getLsbD vid.toNat = false → lookup p vid = .error .unknownVariant) ∧
    (vid.toNat < 8 → p.enabled.getLsbD vid.toNat = true → lookup p vid = .ok (VAR (BitVec.ofNat 3 vid.toNat)))

/-- R70, R161, U9: a command's response has code 0 on success, a code 1..4 and data 0x0000 on an error; INIT, START and
BYTE answer no data. -/
def Obligations.ResponsesHaveTheirForm : Prop :=
  ∀ (c : Word) (s t : State) (f : InFlight), accept c s = .next t → t.flight = some f →
    (f.rsp.err = false → f.rsp.code = 0#3) ∧
    (f.rsp.err = true → 1 ≤ f.rsp.code.toNat ∧ f.rsp.code.toNat ≤ 4 ∧ f.rsp.data = 0x0000#16) ∧
    (c.toNat / 4096 = 1 ∨ c.toNat / 4096 = 2 ∨ c.toNat / 4096 = 3 → f.rsp.data = 0x0000#16)

/-- R166: the priority of errors, for every word in every state. -/
def Obligations.ErrorPriority : Prop :=
  ∀ (c : Word) (s : State),
    let code := fun (k : BitVec 3) => ∃ t, accept c s = .next t ∧ ∃ f, t.flight = some f ∧ f.rsp.code = k
    (∀ r, decode c = .error r → code 4#3) ∧
    (decode c = .ok .status ∨ decode c = .ok .init → code 0#3) ∧
    (∀ vid i, decode c = .ok (.start vid) ∨ decode c = .ok (.tblrd vid i) →
      (8 ≤ vid.toNat ∨ s.cfg.enabled.getLsbD vid.toNat = false → code 1#3) ∧
      (vid.toNat < 8 → s.cfg.enabled.getLsbD vid.toNat = true →
        (s.ready = false → code 2#3) ∧ (s.ready = true → code 0#3))) ∧
    (∀ b, decode c = .ok (.byte b) ∨ decode c = .ok .final →
      (s.ready = false → code 2#3) ∧
      (s.ready = true → s.active = false → code 3#3) ∧
      (s.ready = true → s.active = true → code 0#3))

/-- R167: a command that raises an error changes no state element, and no later response reports it: every next command
is answered as if the failed one had not been sent. -/
def Obligations.ErrorsChangeNothing : Prop :=
  ∀ (c : Word) (s t : State) (f : InFlight), accept c s = .next t → t.flight = some f → f.rsp.err = true →
    SameEngine s t ∧
    ∀ (c' : Word) (u : State), accept c' s = .next u →
      ∃ u', accept c' t = .next u' ∧ u'.flight.map (·.rsp) = u.flight.map (·.rsp) ∧ SameEngine u u'

/-- R61, R160: in every state every word is answered, with one response of R70's form. -/
def Obligations.EveryWordIsAnswered : Prop :=
  ∀ (c : Word) (s : State), ∃ t r, accept c s = .next t ∧ Answers s t r ∧ r.wf = true

/-! ### The commands -/

/-- R30: the fields of the status view. -/
def Obligations.StatusViewFields : Prop :=
  (∀ s : State, (statusView s).getLsbD 0 = s.ready ∧ (statusView s).getLsbD 1 = s.active ∧
    (statusView s).extractLsb' 2 3 = s.cur ∧ (statusView s).extractLsb' 5 3 = 0#3 ∧
    (statusView s).extractLsb' 8 8 = s.cfg.enabled) ∧
  ∀ p : Params, statusView (State.resetWith p) = p.enabled.setWidth 16 <<< 8

/-- R85: STATUS answers `{ENABLED, 0b000, cur, active, ready}`, in every state, and writes nothing. -/
def Obligations.StatusAnswersTheView : Prop :=
  decode 0x0000#16 = .ok .status ∧
  ∀ s : State, ∃ t d, exec .status s = .next t ∧ Answers s t { err := false, code := 0#3, data := d } ∧
    d.toNat = s.cfg.enabled.toNat * 256 + s.cur.toNat * 4 + s.active.toNat * 2 + s.ready.toNat ∧ SameEngine s t

/-- R104: INIT builds the table of every enabled variant and sets `ready`; disabled variants get no table; `active`,
`cur` and `acc` are not touched; allowed in every state. -/
def Obligations.InitBuildsTheEnabledTables : Prop :=
  decode 0x1000#16 = .ok .init ∧
  ∀ s : State, ∃ t, exec .init s = .next t ∧ Answers s t { err := false, code := 0#3, data := 0x0000#16 } ∧
    t.ready = true ∧
    (∀ v i, variantEnabled s.cfg v = true → tblEntry t v i = buildTable (VAR v).poly (VAR v).refin i) ∧
    (∀ v i, variantEnabled s.cfg v = false →
      tblEntry t v i = tblEntry s v i ∧ t.tbl.find (tblLoc v i) = s.tbl.find (tblLoc v i)) ∧
    t.active = s.active ∧ t.cur = s.cur ∧ t.acc = s.acc

/-- R125: START, its effect and its two errors in their order; a running calculation is abandoned, and an error leaves
it as it was. -/
def Obligations.StartBeginsACalculation : Prop :=
  ∀ (vid : VidField) (s : State),
    decode (0x2000#16 + vid.setWidth 16 <<< 8) = .ok (.start vid) ∧
    (vid.toNat < 8 → s.cfg.enabled.getLsbD vid.toNat = true → s.ready = true →
      ∃ t, exec (.start vid) s = .next t ∧ Answers s t { err := false, code := 0#3, data := 0x0000#16 } ∧
        t.cur = BitVec.ofNat 3 vid.toNat ∧
        t.acc = (if (VAR t.cur).refin then bitReverse16 (VAR t.cur).init else (VAR t.cur).init) ∧
        t.active = true ∧ t.ready = true ∧ t.tbl = s.tbl ∧ SameTables s t) ∧
    (8 ≤ vid.toNat ∨ s.cfg.enabled.getLsbD vid.toNat = false →
      ∃ t, exec (.start vid) s = .next t ∧ Answers s t { err := true, code := 1#3, data := 0x0000#16 } ∧
        SameEngine s t) ∧
    (vid.toNat < 8 → s.cfg.enabled.getLsbD vid.toNat = true → s.ready = false →
      ∃ t, exec (.start vid) s = .next t ∧ Answers s t { err := true, code := 2#3, data := 0x0000#16 } ∧
        SameEngine s t)

/-- R126, R121, R122: BYTE folds one byte into `acc` through the table of `cur`, for both reflections; its two errors.
Where `cur` names a disabled variant, which no reachable state with `active` = 1 does (R26), `tblEntry` is a free value
(the model's choice, log entry 10), and the statement holds for every value of it. -/
def Obligations.ByteFoldsOneByte : Prop :=
  ∀ (b : Byte) (s : State),
    decode (0x3000#16 + b.setWidth 16) = .ok (.byte b) ∧
    (s.ready = true → s.active = true →
      ∃ t, exec (.byte b) s = .next t ∧ Answers s t { err := false, code := 0#3, data := 0x0000#16 } ∧
        ((VAR s.cur).refin = true →
          t.acc = (s.acc >>> 8) ^^^ tblEntry s s.cur (s.acc.setWidth 8 ^^^ b)) ∧
        ((VAR s.cur).refin = false →
          t.acc = (s.acc <<< 8) ^^^ tblEntry s s.cur ((s.acc >>> 8).setWidth 8 ^^^ b)) ∧
        t.ready = s.ready ∧ t.active = s.active ∧ t.cur = s.cur ∧ t.tbl = s.tbl ∧ SameTables s t) ∧
    (s.ready = false →
      ∃ t, exec (.byte b) s = .next t ∧ Answers s t { err := true, code := 2#3, data := 0x0000#16 } ∧
        SameEngine s t) ∧
    (s.ready = true → s.active = false →
      ∃ t, exec (.byte b) s = .next t ∧ Answers s t { err := true, code := 3#3, data := 0x0000#16 } ∧
        SameEngine s t)

/-- R13, R62, R69: `Step` is a total function: every command completes in every state, and every word, in every state,
gives one next state and one response, of R70's form. This includes a BYTE whose `cur` has no table, which runs with a
free value for the entry (the model's choice, log entry 10). -/
def Obligations.StepIsTotal : Prop :=
  (∀ (i : Instr) (s : State), ∃ t, exec i s = .next t) ∧
  ∀ (c : Word) (s : State), ∃ t r, transact c s = some (t, r) ∧ r.wf = true ∧ t.flight = none ∧ t.cfg = s.cfg

/-- R127, R123: FINAL answers the checksum and clears `active`; `acc` and `cur` keep their values; its two errors. -/
def Obligations.FinalAnswersTheChecksum : Prop :=
  decode 0x4000#16 = .ok .final ∧
  ∀ s : State,
    (s.ready = true → s.active = true →
      ∃ t, exec .final s = .next t ∧
        Answers s t
          { err := false
            code := 0#3
            data := (if (VAR s.cur).refout ≠ (VAR s.cur).refin then bitReverse16 s.acc else s.acc) ^^^
              (VAR s.cur).xorout } ∧
        t.active = false ∧ t.ready = s.ready ∧ t.cur = s.cur ∧ t.acc = s.acc ∧ t.tbl = s.tbl ∧ SameTables s t) ∧
    (s.ready = false →
      ∃ t, exec .final s = .next t ∧ Answers s t { err := true, code := 2#3, data := 0x0000#16 } ∧ SameEngine s t) ∧
    (s.ready = true → s.active = false →
      ∃ t, exec .final s = .next t ∧ Answers s t { err := true, code := 3#3, data := 0x0000#16 } ∧ SameEngine s t)

/-- R105: TBLRD answers one table entry, the built one under the invariant, and writes nothing; its two errors in their
order. -/
def Obligations.TblrdAnswersOneEntry : Prop :=
  ∀ (vid : VidField) (i : Byte) (s : State),
    decode (0x5000#16 + vid.setWidth 16 <<< 8 + i.setWidth 16) = .ok (.tblrd vid i) ∧
    (vid.toNat < 8 → s.cfg.enabled.getLsbD vid.toNat = true → s.ready = true →
      ∃ t, exec (.tblrd vid i) s = .next t ∧
        Answers s t { err := false, code := 0#3, data := tblEntry s (BitVec.ofNat 3 vid.toNat) i } ∧ SameEngine s t ∧
        (s.Inv → tblEntry s (BitVec.ofNat 3 vid.toNat) i =
          buildTable (VAR (BitVec.ofNat 3 vid.toNat)).poly (VAR (BitVec.ofNat 3 vid.toNat)).refin i)) ∧
    (8 ≤ vid.toNat ∨ s.cfg.enabled.getLsbD vid.toNat = false →
      ∃ t, exec (.tblrd vid i) s = .next t ∧ Answers s t { err := true, code := 1#3, data := 0x0000#16 } ∧
        SameEngine s t) ∧
    (vid.toNat < 8 → s.cfg.enabled.getLsbD vid.toNat = true → s.ready = false →
      ∃ t, exec (.tblrd vid i) s = .next t ∧ Answers s t { err := true, code := 2#3, data := 0x0000#16 } ∧
        SameEngine s t)

/-! ### Frames -/

/-- R85, R105: whatever STATUS and TBLRD answer, they change nothing of the engine and use up or add nothing at the
interface but their response. -/
def Obligations.ReadingCommandsFrame : Prop :=
  ∀ s t : State,
    (exec .status s = .next t → SameEngine s t ∧ t.bus = s.bus ∧ t.taken = s.taken) ∧
    ∀ vid i, exec (.tblrd vid i) s = .next t → SameEngine s t ∧ t.bus = s.bus ∧ t.taken = s.taken

/-- R104: INIT writes `ready` and the entries of enabled variants, and leaves the rest. -/
def Obligations.InitFrame : Prop :=
  ∀ s t : State, exec .init s = .next t →
    t.active = s.active ∧ t.cur = s.cur ∧ t.acc = s.acc ∧ t.cfg = s.cfg ∧ t.epoch = s.epoch ∧ t.bus = s.bus ∧
    t.taken = s.taken ∧ t.pace = s.pace ∧
    ∀ v i, variantEnabled s.cfg v = false → tblEntry t v i = tblEntry s v i

/-- R125 to R127: START, BYTE and FINAL leave `ready` and every table entry; START writes `cur`, `acc`, `active`, BYTE
writes `acc`, FINAL writes `active`, and none writes more. -/
def Obligations.CalculatorFrame : Prop :=
  ∀ s t : State,
    let rest := t.ready = s.ready ∧ t.tbl = s.tbl ∧ SameTables s t ∧ t.cfg = s.cfg ∧ t.epoch = s.epoch ∧
      t.bus = s.bus ∧ t.taken = s.taken
    (∀ vid, exec (.start vid) s = .next t → rest) ∧
    (∀ b, exec (.byte b) s = .next t → rest ∧ t.active = s.active ∧ t.cur = s.cur) ∧
    (exec .final s = .next t → rest ∧ t.acc = s.acc ∧ t.cur = s.cur)

/-! ### Invariants -/

/-- R26, R190: the state after reset meets the invariant, for every build. The witness that it is not empty. -/
def Obligations.InvariantHoldsAtReset : Prop :=
  (∀ p : Params, (State.resetWith p).Inv) ∧ State.reset.Inv

/-- R26, R25, R70: every clock edge keeps the invariant, from every state that meets it. -/
def Obligations.EveryStepKeepsTheInvariant : Prop :=
  ∀ s t : State, s.Inv → step s = .next t → t.Inv

/-- R26: (I-1) and (I-2) hold in every state reachable from reset, whatever the host drives, the build is and the
realisation's latencies are. -/
def Obligations.ReachableStatesMeetI1AndI2 : Prop :=
  ∀ (p : Params) (bus : List HostEdge) (pace : List Nat) (n : Nat) (s : State),
    Host.Core.run core n { State.resetWith p with bus := bus, pace := pace } = .next s →
    (s.active = true → s.ready = true ∧ s.cfg.enabled.getLsbD s.cur.toNat = true) ∧
    (s.ready = true → ∀ (v : VariantId) (i : Byte), s.cfg.enabled.getLsbD v.toNat = true →
      tblEntry s v i = buildTable (VAR v).poly (VAR v).refin i)

/-- 20_memory.md R41 and log entry 9 (the model's form): every edge keeps the table memory canonical, from any state. -/
def Obligations.TableMemoryStaysCanonical : Prop :=
  ∀ s t : State, Memory.wf s.tbl → step s = .next t → Memory.wf t.tbl

/-- R199, R201: from any state no number of edges, and nothing the host drives, stops the machine. -/
def Obligations.NothingStopsTheMachine : Prop :=
  ∀ s : State, s.NeverStops

/-- R41, R104, log entry 11: on a canonical memory INIT's one pass is the loop of single writes, in the spec's order. -/
def Obligations.InitIsTheLoopOfSingleWrites : Prop :=
  ∀ (p : Params) (m : Memory), Memory.wf m →
    Memory.writeAll (initCells p) m = (initCells p).foldl (fun m c => Memory.write c.1 c.2 m) m

/-- R45, R104, R108: INIT again changes no table entry. -/
def Obligations.InitIsIdempotent : Prop :=
  ∀ s t u : State, exec .init s = .next t → exec .init t = .next u →
    u.ready = t.ready ∧ SameTables t u ∧ u.active = t.active ∧ u.cur = t.cur ∧ u.acc = t.acc

/-- R197: INIT during a calculation rewrites the running table with its own contents and touches nothing of it. -/
def Obligations.InitDuringACalculationIsHarmless : Prop :=
  ∀ s t : State, s.Inv → s.active = true → exec .init s = .next t →
    (∀ i, tblEntry t s.cur i = tblEntry s s.cur i) ∧ t.acc = s.acc ∧ t.cur = s.cur ∧ t.active = s.active

/-! ### The datapath -/

/-- R80: the registry's eight records. -/
def Obligations.RegistryContents : Prop :=
  VAR 0#3 = { poly := 0x1021#16, init := 0xFFFF#16, refin := true, refout := true, xorout := 0xFFFF#16 } ∧
  VAR 1#3 = { poly := 0x1021#16, init := 0x0000#16, refin := true, refout := true, xorout := 0x0000#16 } ∧
  VAR 2#3 = { poly := 0x1021#16, init := 0xFFFF#16, refin := false, refout := false, xorout := 0x0000#16 } ∧
  VAR 3#3 = { poly := 0x8005#16, init := 0xFFFF#16, refin := true, refout := true, xorout := 0x0000#16 } ∧
  VAR 4#3 = { poly := 0x8005#16, init := 0xFFFF#16, refin := true, refout := true, xorout := 0xFFFF#16 } ∧
  VAR 5#3 = { poly := 0x1021#16, init := 0x0000#16, refin := false, refout := false, xorout := 0x0000#16 } ∧
  VAR 6#3 = { poly := 0x8005#16, init := 0x0000#16, refin := true, refout := true, xorout := 0x0000#16 } ∧
  VAR 7#3 = { poly := 0x8005#16, init := 0x0000#16, refin := true, refout := true, xorout := 0xFFFF#16 }

/-- R151, R152: both bit reversals are their own inverse, and the fixed points of the 16-bit one are the words whose bit
k equals bit 15-k. -/
def Obligations.BitReversalsAreInvolutions : Prop :=
  (∀ x : Word, bitReverse16 (bitReverse16 x) = x) ∧ (∀ x : Byte, bitReverse8 (bitReverse8 x) = x) ∧
  ∀ x : Word, bitReverse16 x = x ↔ ∀ k, k < 16 → x.getLsbD k = x.getLsbD (15 - k)

/-- R106 (a), (b), (c): entry 0 is zero, entry 1 of a non-reflected table is the polynomial, entry 0x80 of a reflected
one its reversal. -/
def Obligations.TableEntriesThatNameThePolynomial : Prop :=
  ∀ p : Word, buildTable p false 0x00#8 = 0x0000#16 ∧ buildTable p true 0x00#8 = 0x0000#16 ∧
    buildTable p false 0x01#8 = p ∧ buildTable p true 0x80#8 = bitReverse16 p

/-- R106 (d): the reflected table is the non-reflected one, reversed in index and entry. -/
def Obligations.ReflectedTableMirrorsTheOther : Prop :=
  ∀ (p : Word) (i : Byte), buildTable p true i = bitReverse16 (buildTable p false (bitReverse8 i))

/-- R106 (e): a table is linear in its index. -/
def Obligations.TablesAreLinear : Prop :=
  ∀ (p : Word) (refin : Bool) (a b : Byte),
    buildTable p refin (a ^^^ b) = buildTable p refin a ^^^ buildTable p refin b

/-- R120, R132: for the registry the seed is `init` and Finalize only applies `xorout`. -/
def Obligations.RegistrySeedsAndFinals : Prop :=
  ∀ (v : VariantId) (a : Word), seed (VAR v) = (VAR v).init ∧ finalize (VAR v) a = a ^^^ (VAR v).xorout

/-- R128: the empty message's checksum for every variant. -/
def Obligations.EmptyMessageChecksums : Prop :=
  (∀ V : Variant, calculate V [] = finalize V (seed V)) ∧
  calculate (VAR 0#3) [] = 0x0000#16 ∧ calculate (VAR 1#3) [] = 0x0000#16 ∧ calculate (VAR 2#3) [] = 0xFFFF#16 ∧
  calculate (VAR 3#3) [] = 0xFFFF#16 ∧ calculate (VAR 4#3) [] = 0x0000#16 ∧ calculate (VAR 5#3) [] = 0x0000#16 ∧
  calculate (VAR 6#3) [] = 0x0000#16 ∧ calculate (VAR 7#3) [] = 0xFFFF#16

/-- R124, R127: a START, the message's BYTE commands and a FINAL, from any state of the invariant with `ready` set and
the variant enabled, are all answered with success, and the last answer is `Calculate` of the message. -/
def Obligations.CalculationAnswersCalculate : Prop :=
  ∀ (s : State) (v : VariantId) (data : List Byte), s.Inv → s.ready = true → variantEnabled s.cfg v = true →
    ∃ t, transactAll
        (encode (.start (v.setWidth 4)) :: data.map (fun b => encode (.byte b)) ++ [encode .final]) s =
      some (t, List.replicate (data.length + 1) { err := false, code := 0#3, data := 0x0000#16 } ++
        [{ err := false, code := 0#3, data := calculate (VAR v) data }])

/-- R130: a calculation's checksum depends on the variant and the message alone: two states of the invariant, of any
history, answer the same. -/
def Obligations.CalculationsArePure : Prop :=
  ∀ (s s' t t' : State) (vid : VidField) (data : List Byte) (rs rs' : List Response), s.Inv → s'.Inv →
    s.ready = true → s'.ready = true →
    vid.toNat < 8 → s.cfg.enabled.getLsbD vid.toNat = true → s'.cfg.enabled.getLsbD vid.toNat = true →
    transactAll (encode (.start vid) :: data.map (fun b => encode (.byte b)) ++ [encode .final]) s = some (t, rs) →
    transactAll (encode (.start vid) :: data.map (fun b => encode (.byte b)) ++ [encode .final]) s' = some (t', rs') →
    rs = rs'

/-- R129: the table-driven calculation is the bit-serial reference, for every parameter set and message. -/
def Obligations.CalculateIsTheBitSerialReference : Prop :=
  ∀ (V : Variant) (data : List Byte), calculate V data = refCalculate V data
end

