-- ==== Sys2Proof/Laws/Datapath.lean ====
section
/-! SUPPORT. The bits of the datapath functions. -/

namespace Sys2Proof.Laws

open Sys2Proof Sys2Proof.Machine

/-- R150, bit by bit. -/
theorem bitReverse16_getLsbD (x : Word) (k : Nat) :
    (bitReverse16 x).getLsbD k = (decide (k < 16) && x.getLsbD (15 - k)) := by
  unfold bitReverse16
  rw [BitVec.getLsbD_ofFnLE]
  split <;> simp_all

/-- R152, bit by bit. -/
theorem bitReverse8_getLsbD (x : Byte) (k : Nat) :
    (bitReverse8 x).getLsbD k = (decide (k < 8) && x.getLsbD (7 - k)) := by
  unfold bitReverse8
  rw [BitVec.getLsbD_ofFnLE]
  split <;> simp_all

/-- Bit reversal is linear. -/
theorem bitReverse16_xor (x y : Word) : bitReverse16 (x ^^^ y) = bitReverse16 x ^^^ bitReverse16 y := by
  apply BitVec.eq_of_getLsbD_eq
  intro k _
  simp only [BitVec.getLsbD_xor, bitReverse16_getLsbD]
  cases decide (k < 16) <;> simp

theorem xor_left_comm (a b c : Word) : a ^^^ (b ^^^ c) = b ^^^ (a ^^^ c) := by
  rw [← BitVec.xor_assoc, BitVec.xor_comm a b, BitVec.xor_assoc]

/-- One step of the non-reflected branch is linear in its value (R102). -/
theorem stepLeft_xor (p x y : Word) : stepLeft p (x ^^^ y) = stepLeft p x ^^^ stepLeft p y := by
  simp only [stepLeft, BitVec.getLsbD_xor, BitVec.shiftLeft_xor_distrib]
  cases x.getLsbD 15 <;> cases y.getLsbD 15 <;> simp [BitVec.xor_assoc, BitVec.xor_comm, xor_left_comm]

/-- One step of the reflected branch is linear in its value (R101). -/
theorem stepRight_xor (p x y : Word) : stepRight p (x ^^^ y) = stepRight p x ^^^ stepRight p y := by
  simp only [stepRight, BitVec.getLsbD_xor, BitVec.ushiftRight_xor_distrib]
  cases x.getLsbD 0 <;> cases y.getLsbD 0 <;> simp [BitVec.xor_assoc, BitVec.xor_comm, xor_left_comm]

/-- Iterating a linear step is linear. -/
theorem iterate_xor (f : Word → Word) (h : ∀ x y, f (x ^^^ y) = f x ^^^ f y) (n : Nat) (x y : Word) :
    f^[n] (x ^^^ y) = f^[n] x ^^^ f^[n] y := by
  induction n generalizing x y with
  | zero => rfl
  | succ n ih => simp only [Function.iterate_succ_apply, h, ih]

end Sys2Proof.Laws
end

