-- ==== Sys2Proof/Laws/Encoding.lean ====
section
/-! SUPPORT. The fields of a command word (R63). -/

namespace Sys2Proof.Laws

open Sys2Proof Sys2Proof.Machine

@[simp] theorem opField_commandWord (op : BitVec 4) (vid : VidField) (imm : Byte) :
    opField (commandWord op vid imm) = op := by
  apply BitVec.eq_of_getLsbD_eq
  intro k hk
  simp only [opField, commandWord, BitVec.getLsbD_extractLsb', BitVec.getLsbD_append, hk, decide_true, Bool.true_and]
  rw [if_neg (by omega), if_neg (by omega)]
  congr 1
  omega

@[simp] theorem vidField_commandWord (op : BitVec 4) (vid : VidField) (imm : Byte) :
    vidField (commandWord op vid imm) = vid := by
  apply BitVec.eq_of_getLsbD_eq
  intro k hk
  simp only [vidField, commandWord, BitVec.getLsbD_extractLsb', BitVec.getLsbD_append, hk, decide_true, Bool.true_and]
  rw [if_neg (by omega), if_pos (by omega)]
  congr 1
  omega

@[simp] theorem immField_commandWord (op : BitVec 4) (vid : VidField) (imm : Byte) :
    immField (commandWord op vid imm) = imm := by
  apply BitVec.eq_of_getLsbD_eq
  intro k hk
  simp only [immField, commandWord, BitVec.getLsbD_extractLsb', BitVec.getLsbD_append, hk, decide_true, Bool.true_and]
  rw [if_pos (by omega)]
  congr 1
  omega

/-- A word is its three fields. -/
theorem commandWord_fields (c : Word) : commandWord (opField c) (vidField c) (immField c) = c := by
  apply BitVec.eq_of_getLsbD_eq
  intro k hk
  simp only [commandWord, opField, vidField, immField, BitVec.getLsbD_append, BitVec.getLsbD_extractLsb']
  split
  · simp_all
  · split
    · rename_i h1 h2
      simp only [h2, decide_true, Bool.true_and]
      congr 1; omega
    · rename_i h1 h2
      have h3 : k - 8 - 4 < 4 := by omega
      simp only [h3, decide_true, Bool.true_and]
      congr 1; omega

/-- R64: the operand types carry the operand ranges, so every command is well-formed. -/
theorem instr_wellFormed (i : Instr) : i.wellFormed = true := by
  cases i with
  | status | init | final => rfl
  | start vid => have := vid.isLt; simp only [Instr.wellFormed, decide_eq_true_eq]; omega
  | byte b => have := b.isLt; simp only [Instr.wellFormed, decide_eq_true_eq]; omega
  | tblrd vid i =>
    have := vid.isLt
    have := i.isLt
    simp only [Instr.wellFormed, Bool.and_eq_true, decide_eq_true_eq]
    omega

end Sys2Proof.Laws
end

