-- ==== Sys2Proof/Laws/Memory.lean ====
section
/-! SUPPORT. The laws of the table memory: what a read gives after a write, and that every write keeps the canonical
form. -/

namespace Sys2Proof.Laws

open Sys2Proof Sys2Proof.Machine

theorem find_write (m : Memory) (k j : Nat) (e : Word) :
    (Memory.write k e m).find j = if k = j then some e else m.find j := by
  induction m with
  | nil => simp [Memory.write, Memory.find]
  | cons c m ih =>
    obtain ⟨k', e'⟩ := c
    simp only [Memory.write]
    split
    · simp [Memory.find]
    · split
      · subst k'
        simp only [Memory.find]
        split <;> rfl
      · simp only [Memory.find, ih]
        split <;> split <;> simp_all

@[simp] theorem find_write_same (m : Memory) (k : Nat) (e : Word) : (Memory.write k e m).find k = some e := by
  simp [find_write]

theorem find_write_other (m : Memory) {k j : Nat} (e : Word) (h : k ≠ j) :
    (Memory.write k e m).find j = m.find j := by
  simp [find_write, h]

/-- A written memory lists nothing below a bound that held before, if the written location keeps it. -/
theorem write_bound (m : Memory) (k b : Nat) (e : Word) (hk : b < k) (h : ∀ c ∈ m, b < c.1) :
    ∀ c ∈ Memory.write k e m, b < c.1 := by
  induction m with
  | nil => simpa [Memory.write] using hk
  | cons c m ih =>
    obtain ⟨k', e'⟩ := c
    simp only [List.mem_cons, forall_eq_or_imp] at h
    simp only [Memory.write]
    split
    · simpa [hk] using h
    · split
      · simpa [hk] using h.2
      · exact List.forall_mem_cons.mpr ⟨h.1, ih h.2⟩

theorem write_wf (m : Memory) (k : Nat) (e : Word) (h : Memory.wf m) : Memory.wf (Memory.write k e m) := by
  induction m with
  | nil => simp [Memory.write, Memory.wf]
  | cons c m ih =>
    obtain ⟨k', e'⟩ := c
    simp only [Memory.wf, List.pairwise_cons] at h
    simp only [Memory.write]
    split
    · rename_i hlt
      simp only [Memory.wf, List.pairwise_cons, List.mem_cons, forall_eq_or_imp]
      exact ⟨⟨hlt, fun c hc => Nat.lt_trans hlt (h.1 c hc)⟩, h.1, h.2⟩
    · split
      · subst k
        simpa only [Memory.wf, List.pairwise_cons] using h
      · simp only [Memory.wf, List.pairwise_cons]
        exact ⟨write_bound m k k' e (by omega) h.1, ih h.2⟩

/-- Placing one cell and going on with `rest`: a read sees the cell, else what `rest` does to reads. `rest` must leave
the locations up to `k` alone, as the rest of a rising list of cells does. -/
theorem find_place (k : Nat) (e : Word) (rest : Memory → Memory)
    (g : Nat → Option Word) (hg : ∀ j, j ≤ k → g j = none)
    (hrest : ∀ m j, (rest m).find j = (g j).or (m.find j)) (m : Memory) (j : Nat) :
    (Memory.place k e rest m).find j = if k = j then some e else (g j).or (m.find j) := by
  induction m with
  | nil => simp only [Memory.place, Memory.find, hrest]
  | cons c m ih =>
    obtain ⟨k', e'⟩ := c
    simp only [Memory.place]
    split
    · simp only [Memory.find, hrest]
    · split
      · subst k'
        simp only [Memory.find, hrest]
        split <;> rfl
      · simp only [Memory.find, ih]
        by_cases hj : k' = j
        · subst j
          have : k ≠ k' := by assumption
          simp [this, hg k' (by omega)]
        · simp [hj]

/-- Cells whose locations rise list nothing up to the location before them. -/
theorem find_of_lt (cells : List (Nat × Word)) (k j : Nat) (h : ∀ c ∈ cells, k < c.1) (hj : j ≤ k) :
    Memory.find cells j = none := by
  induction cells with
  | nil => rfl
  | cons c cells ih =>
    obtain ⟨k', e'⟩ := c
    simp only [List.mem_cons, forall_eq_or_imp] at h
    have : k' ≠ j := by omega
    simp [Memory.find, this, ih h.2]

/-- What a read gives after INIT's one pass. -/
theorem find_writeAll (cells : List (Nat × Word)) (h : Memory.wf cells) (m : Memory) (j : Nat) :
    (Memory.writeAll cells m).find j = (Memory.find cells j).or (m.find j) := by
  induction cells generalizing m j with
  | nil => simp [Memory.writeAll, Memory.find]
  | cons c cells ih =>
    obtain ⟨k, e⟩ := c
    simp only [Memory.wf, List.pairwise_cons] at h
    simp only [Memory.writeAll]
    rw [find_place k e _ (Memory.find cells) (fun j hj => find_of_lt cells k j h.1 hj) (fun m j => ih h.2 m j)]
    simp only [Memory.find]
    split <;> simp

theorem mem_place (k : Nat) (e : Word) (rest : Memory → Memory) (cells : List (Nat × Word))
    (hrest : ∀ m c, c ∈ rest m → c ∈ cells ∨ c ∈ m) (m : Memory) (c : Nat × Word)
    (hc : c ∈ Memory.place k e rest m) : c = (k, e) ∨ c ∈ cells ∨ c ∈ m := by
  induction m with
  | nil =>
    simp only [Memory.place, List.mem_cons] at hc
    exact hc.imp_right fun h => by simpa using hrest [] c h
  | cons c' m ih =>
    obtain ⟨k', e'⟩ := c'
    simp only [Memory.place] at hc
    split at hc
    · exact (List.mem_cons.mp hc).imp_right (hrest _ c)
    · split at hc
      · exact (List.mem_cons.mp hc).imp_right fun h => (hrest _ c h).imp_right (List.mem_cons_of_mem _)
      · rcases List.mem_cons.mp hc with h | h
        · exact .inr (.inr (h ▸ List.mem_cons_self))
        · exact (ih h).imp_right (Or.imp_right (List.mem_cons_of_mem _))

/-- Every cell of the result was written or was there. -/
theorem mem_writeAll (cells : List (Nat × Word)) (m : Memory) (c : Nat × Word)
    (hc : c ∈ Memory.writeAll cells m) : c ∈ cells ∨ c ∈ m := by
  induction cells generalizing m c with
  | nil => exact .inr hc
  | cons c' cells ih =>
    obtain ⟨k, e⟩ := c'
    rcases mem_place k e _ cells (fun m c => ih m c) m c hc with h | h | h
    · exact .inl (h ▸ List.mem_cons_self)
    · exact .inl (List.mem_cons_of_mem _ h)
    · exact .inr h

theorem place_wf (k : Nat) (e : Word) (rest : Memory → Memory) (cells : List (Nat × Word))
    (hcells : ∀ c ∈ cells, k < c.1) (hmem : ∀ m c, c ∈ rest m → c ∈ cells ∨ c ∈ m)
    (hrest : ∀ m, Memory.wf m → Memory.wf (rest m)) (m : Memory) (h : Memory.wf m) :
    Memory.wf (Memory.place k e rest m) := by
  induction m with
  | nil =>
    simp only [Memory.place, Memory.wf, List.pairwise_cons]
    exact ⟨fun c hc => hcells c (by simpa using hmem [] c hc), hrest [] h⟩
  | cons c' m ih =>
    obtain ⟨k', e'⟩ := c'
    have h' := h
    simp only [Memory.wf, List.pairwise_cons] at h'
    simp only [Memory.place]
    split
    · rename_i hlt
      simp only [Memory.wf, List.pairwise_cons]
      refine ⟨fun c hc => ?_, hrest _ h⟩
      rcases hmem _ c hc with h1 | h1
      · exact hcells c h1
      · rcases List.mem_cons.mp h1 with h2 | h2
        · subst h2; exact hlt
        · exact Nat.lt_trans hlt (h'.1 c h2)
    · split
      · subst k'
        simp only [Memory.wf, List.pairwise_cons]
        refine ⟨fun c hc => ?_, hrest _ h'.2⟩
        exact (hmem _ c hc).elim (hcells c) (h'.1 c)
      · simp only [Memory.wf, List.pairwise_cons]
        refine ⟨fun c hc => ?_, ih h'.2⟩
        rcases mem_place k e rest cells hmem m c hc with h1 | h1 | h1
        · subst h1; simp only; omega
        · have := hcells c h1; omega
        · exact h'.1 c h1

/-- INIT's one pass keeps the canonical form. -/
theorem writeAll_wf (cells : List (Nat × Word)) (hc : Memory.wf cells) (m : Memory) (h : Memory.wf m) :
    Memory.wf (Memory.writeAll cells m) := by
  induction cells generalizing m with
  | nil => exact h
  | cons c cells ih =>
    obtain ⟨k, e⟩ := c
    have hc' := hc
    simp only [Memory.wf, List.pairwise_cons] at hc'
    exact place_wf k e _ cells hc'.1 (fun m c => mem_writeAll cells m c) (fun m hm => ih hc'.2 m hm) m h

/-- Two canonical memories that read alike are the same list. -/
theorem wf_ext (m m' : Memory) (h : Memory.wf m) (h' : Memory.wf m') (hf : ∀ j, m.find j = m'.find j) : m = m' := by
  induction m generalizing m' with
  | nil =>
    cases m' with
    | nil => rfl
    | cons c m' => obtain ⟨k, e⟩ := c; simpa [Memory.find] using hf k
  | cons c m ih =>
    obtain ⟨k, e⟩ := c
    cases m' with
    | nil => simpa [Memory.find] using hf k
    | cons c' m' =>
      obtain ⟨k', e'⟩ := c'
      simp only [Memory.wf, List.pairwise_cons] at h h'
      have hk : k = k' := by
        rcases Nat.lt_trichotomy k k' with hlt | heq | hlt
        · have := hf k
          have hn : k' ≠ k := by omega
          simp [Memory.find, hn, find_of_lt m' k' k h'.1 (by omega)] at this
        · exact heq
        · have := hf k'
          have hn : k ≠ k' := by omega
          simp [Memory.find, hn, find_of_lt m k k' h.1 (by omega)] at this
      subst hk
      have he : e = e' := by simpa [Memory.find] using hf k
      subst he
      congr 1
      refine ih m' h.2 h'.2 fun j => ?_
      by_cases hj : k = j
      · subst hj
        rw [find_of_lt m k k h.1 (Nat.le_refl k), find_of_lt m' k k h'.1 (Nat.le_refl k)]
      · simpa [Memory.find, hj] using hf j

end Sys2Proof.Laws
end

