-- ==== Sys2Proof/Laws/State.lean ====
section
/-! SUPPORT. One lemma for each field and each named update of State, true by rfl, so that no proof unfolds an update. -/

namespace Sys2Proof.Laws

open Sys2Proof Sys2Proof.Machine

variable (s : State)

/-! ### `State.answer` -/

@[simp] theorem answer_cfg (r : Response) : (s.answer r).cfg = s.cfg := rfl
@[simp] theorem answer_ready (r : Response) : (s.answer r).ready = s.ready := rfl
@[simp] theorem answer_active (r : Response) : (s.answer r).active = s.active := rfl
@[simp] theorem answer_cur (r : Response) : (s.answer r).cur = s.cur := rfl
@[simp] theorem answer_acc (r : Response) : (s.answer r).acc = s.acc := rfl
@[simp] theorem answer_tbl (r : Response) : (s.answer r).tbl = s.tbl := rfl
@[simp] theorem answer_flight (r : Response) : (s.answer r).flight = some { rsp := r, wait := cmdLatency s - 1 } := rfl
@[simp] theorem answer_bus (r : Response) : (s.answer r).bus = s.bus := rfl
@[simp] theorem answer_taken (r : Response) : (s.answer r).taken = s.taken := rfl
@[simp] theorem answer_pace (r : Response) : (s.answer r).pace = s.pace.tail := rfl
@[simp] theorem answer_epoch (r : Response) : (s.answer r).epoch = s.epoch := rfl

/-! ### `State.answerInit` -/

@[simp] theorem answerInit_cfg (r : Response) : (s.answerInit r).cfg = s.cfg := rfl
@[simp] theorem answerInit_ready (r : Response) : (s.answerInit r).ready = s.ready := rfl
@[simp] theorem answerInit_active (r : Response) : (s.answerInit r).active = s.active := rfl
@[simp] theorem answerInit_cur (r : Response) : (s.answerInit r).cur = s.cur := rfl
@[simp] theorem answerInit_acc (r : Response) : (s.answerInit r).acc = s.acc := rfl
@[simp] theorem answerInit_tbl (r : Response) : (s.answerInit r).tbl = s.tbl := rfl
@[simp] theorem answerInit_flight (r : Response) : (s.answerInit r).flight = some { rsp := r, wait := initLatency s.cfg - 1 } := rfl
@[simp] theorem answerInit_bus (r : Response) : (s.answerInit r).bus = s.bus := rfl
@[simp] theorem answerInit_taken (r : Response) : (s.answerInit r).taken = s.taken := rfl
@[simp] theorem answerInit_pace (r : Response) : (s.answerInit r).pace = s.pace := rfl
@[simp] theorem answerInit_epoch (r : Response) : (s.answerInit r).epoch = s.epoch := rfl

/-! ### `State.nextEdge` -/

@[simp] theorem nextEdge_cfg : (s.nextEdge).cfg = s.cfg := rfl
@[simp] theorem nextEdge_ready : (s.nextEdge).ready = s.ready := rfl
@[simp] theorem nextEdge_active : (s.nextEdge).active = s.active := rfl
@[simp] theorem nextEdge_cur : (s.nextEdge).cur = s.cur := rfl
@[simp] theorem nextEdge_acc : (s.nextEdge).acc = s.acc := rfl
@[simp] theorem nextEdge_tbl : (s.nextEdge).tbl = s.tbl := rfl
@[simp] theorem nextEdge_flight : (s.nextEdge).flight = s.flight := rfl
@[simp] theorem nextEdge_bus : (s.nextEdge).bus = s.bus.tail := rfl
@[simp] theorem nextEdge_taken : (s.nextEdge).taken = s.taken := rfl
@[simp] theorem nextEdge_pace : (s.nextEdge).pace = s.pace := rfl
@[simp] theorem nextEdge_epoch : (s.nextEdge).epoch = s.epoch := rfl

/-! ### `State.transfer` -/

@[simp] theorem transfer_cfg (r : Response) : (s.transfer r).cfg = s.cfg := rfl
@[simp] theorem transfer_ready (r : Response) : (s.transfer r).ready = s.ready := rfl
@[simp] theorem transfer_active (r : Response) : (s.transfer r).active = s.active := rfl
@[simp] theorem transfer_cur (r : Response) : (s.transfer r).cur = s.cur := rfl
@[simp] theorem transfer_acc (r : Response) : (s.transfer r).acc = s.acc := rfl
@[simp] theorem transfer_tbl (r : Response) : (s.transfer r).tbl = s.tbl := rfl
@[simp] theorem transfer_flight (r : Response) : (s.transfer r).flight = none := rfl
@[simp] theorem transfer_bus (r : Response) : (s.transfer r).bus = s.bus := rfl
@[simp] theorem transfer_taken (r : Response) : (s.transfer r).taken = s.taken ++ [r] := rfl
@[simp] theorem transfer_pace (r : Response) : (s.transfer r).pace = s.pace := rfl
@[simp] theorem transfer_epoch (r : Response) : (s.transfer r).epoch = s.epoch := rfl

/-! ### `State.countDown` -/

@[simp] theorem countDown_cfg (r : Response) (n : Nat) : (s.countDown r n).cfg = s.cfg := rfl
@[simp] theorem countDown_ready (r : Response) (n : Nat) : (s.countDown r n).ready = s.ready := rfl
@[simp] theorem countDown_active (r : Response) (n : Nat) : (s.countDown r n).active = s.active := rfl
@[simp] theorem countDown_cur (r : Response) (n : Nat) : (s.countDown r n).cur = s.cur := rfl
@[simp] theorem countDown_acc (r : Response) (n : Nat) : (s.countDown r n).acc = s.acc := rfl
@[simp] theorem countDown_tbl (r : Response) (n : Nat) : (s.countDown r n).tbl = s.tbl := rfl
@[simp] theorem countDown_flight (r : Response) (n : Nat) : (s.countDown r n).flight = some { rsp := r, wait := n } := rfl
@[simp] theorem countDown_bus (r : Response) (n : Nat) : (s.countDown r n).bus = s.bus := rfl
@[simp] theorem countDown_taken (r : Response) (n : Nat) : (s.countDown r n).taken = s.taken := rfl
@[simp] theorem countDown_pace (r : Response) (n : Nat) : (s.countDown r n).pace = s.pace := rfl
@[simp] theorem countDown_epoch (r : Response) (n : Nat) : (s.countDown r n).epoch = s.epoch := rfl

/-! ### `State.resetEvent` -/

@[simp] theorem resetEvent_cfg : (s.resetEvent).cfg = s.cfg := rfl
@[simp] theorem resetEvent_ready : (s.resetEvent).ready = false := rfl
@[simp] theorem resetEvent_active : (s.resetEvent).active = false := rfl
@[simp] theorem resetEvent_cur : (s.resetEvent).cur = 0#3 := rfl
@[simp] theorem resetEvent_acc : (s.resetEvent).acc = Config.unspecifiedAcc (s.epoch + 1) := rfl
@[simp] theorem resetEvent_tbl : (s.resetEvent).tbl = [] := rfl
@[simp] theorem resetEvent_flight : (s.resetEvent).flight = none := rfl
@[simp] theorem resetEvent_bus : (s.resetEvent).bus = s.bus := rfl
@[simp] theorem resetEvent_taken : (s.resetEvent).taken = s.taken := rfl
@[simp] theorem resetEvent_pace : (s.resetEvent).pace = s.pace := rfl
@[simp] theorem resetEvent_epoch : (s.resetEvent).epoch = s.epoch + 1 := rfl

end Sys2Proof.Laws
end

