-- ==== Sys2Proof/Laws/Tables.lean ====
section
/-! SUPPORT. The cells INIT writes: in rising order, exactly the enabled variants' entries (R104). -/

namespace Sys2Proof.Laws

open Sys2Proof Sys2Proof.Machine

theorem tblLoc_ofNat (v : VariantId) (n : Nat) (h : n < 256) :
    tblLoc v (BitVec.ofNat 8 n) = 256 * v.toNat + n := by
  simp [tblLoc, Nat.mod_eq_of_lt h]

/-- Distinct locations have distinct numbers. -/
theorem tblLoc_inj {v v' : VariantId} {i i' : Byte} (h : tblLoc v i = tblLoc v' i') : v = v' ∧ i = i' := by
  have hi := i.isLt
  have hi' := i'.isLt
  simp only [tblLoc] at h
  exact ⟨BitVec.eq_of_toNat_eq (by omega), BitVec.eq_of_toNat_eq (by omega)⟩

theorem mem_variantCells (p : Params) (v : VariantId) (c : Nat × Word) :
    c ∈ variantCells p v ↔ variantEnabled p v = true ∧ ∃ i, c = (tblLoc v i, variantTable v i) := by
  unfold variantCells
  split
  · rename_i hv
    simp only [List.mem_map, List.mem_range, hv, true_and]
    constructor
    · rintro ⟨n, -, rfl⟩
      exact ⟨_, rfl⟩
    · rintro ⟨i, rfl⟩
      exact ⟨i.toNat, i.isLt, by simp⟩
  · simp_all

theorem mem_initCells (p : Params) (c : Nat × Word) :
    c ∈ initCells p ↔ ∃ v i, variantEnabled p v = true ∧ c = (tblLoc v i, variantTable v i) := by
  simp only [initCells, List.mem_flatMap, List.mem_range, mem_variantCells]
  constructor
  · rintro ⟨n, -, hv, i, rfl⟩
    exact ⟨_, i, hv, rfl⟩
  · rintro ⟨v, i, hv, rfl⟩
    exact ⟨v.toNat, v.isLt, by simpa using hv, i, by simp⟩

theorem variantCells_wf (p : Params) (v : VariantId) : Memory.wf (variantCells p v) := by
  unfold variantCells Memory.wf
  split
  · rw [List.pairwise_map]
    refine List.Pairwise.imp_of_mem ?_ List.pairwise_lt_range
    intro a b ha hb hab
    rw [List.mem_range] at ha hb
    simp only [tblLoc_ofNat v a ha, tblLoc_ofNat v b hb]
    omega
  · exact List.Pairwise.nil

/-- INIT's cells rise strictly, so they are written in one pass. -/
theorem initCells_wf (p : Params) : Memory.wf (initCells p) := by
  unfold initCells
  simp only [Memory.wf]
  rw [List.pairwise_flatMap]
  refine ⟨fun n _ => variantCells_wf p _, List.Pairwise.imp_of_mem ?_ List.pairwise_lt_range⟩
  intro a b ha hb hab c hc d hd
  rw [List.mem_range] at ha hb
  obtain ⟨-, i, rfl⟩ := (mem_variantCells p _ c).mp hc
  obtain ⟨-, j, rfl⟩ := (mem_variantCells p _ d).mp hd
  have hi := i.isLt
  simp only [tblLoc, BitVec.toNat_ofNat]
  omega

/-- A listed cell is what a canonical memory reads there. -/
theorem find_of_mem (m : Memory) (h : Memory.wf m) (c : Nat × Word) (hc : c ∈ m) : m.find c.1 = some c.2 := by
  induction m with
  | nil => simp at hc
  | cons c' m ih =>
    obtain ⟨k, e⟩ := c'
    simp only [Memory.wf, List.pairwise_cons] at h
    rcases List.mem_cons.mp hc with rfl | hc
    · simp [Memory.find]
    · have hn : k ≠ c.1 := Nat.ne_of_lt (h.1 c hc)
      simpa [Memory.find, hn] using ih h.2 hc

theorem mem_of_find (m : Memory) (k : Nat) (e : Word) (h : m.find k = some e) : (k, e) ∈ m := by
  induction m with
  | nil => simp [Memory.find] at h
  | cons c m ih =>
    obtain ⟨k', e'⟩ := c
    simp only [Memory.find] at h
    split at h
    · simp_all
    · exact List.mem_cons_of_mem _ (ih h)

theorem find_initCells_enabled (p : Params) (v : VariantId) (i : Byte) (h : variantEnabled p v = true) :
    Memory.find (initCells p) (tblLoc v i) = some (variantTable v i) :=
  find_of_mem _ (initCells_wf p) (tblLoc v i, variantTable v i) ((mem_initCells p _).mpr ⟨v, i, h, rfl⟩)

theorem find_initCells_disabled (p : Params) (v : VariantId) (i : Byte) (h : variantEnabled p v = false) :
    Memory.find (initCells p) (tblLoc v i) = none := by
  cases hf : Memory.find (initCells p) (tblLoc v i) with
  | none => rfl
  | some e =>
    obtain ⟨v', i', hv, he⟩ := (mem_initCells p _).mp (mem_of_find _ _ _ hf)
    obtain ⟨rfl, rfl⟩ := tblLoc_inj (congrArg Prod.fst he)
    simp [hv] at h

/-- What INIT leaves at an enabled variant's location: the built entry (R104). -/
theorem find_afterInit_enabled (p : Params) (m : Memory) (v : VariantId) (i : Byte) (h : variantEnabled p v = true) :
    (Memory.writeAll (initCells p) m).find (tblLoc v i) = some (variantTable v i) := by
  rw [find_writeAll _ (initCells_wf p), find_initCells_enabled p v i h]
  rfl

/-- INIT leaves a disabled variant's location alone (R84, R104). -/
theorem find_afterInit_disabled (p : Params) (m : Memory) (v : VariantId) (i : Byte) (h : variantEnabled p v = false) :
    (Memory.writeAll (initCells p) m).find (tblLoc v i) = m.find (tblLoc v i) := by
  rw [find_writeAll _ (initCells_wf p), find_initCells_disabled p v i h]
  rfl

end Sys2Proof.Laws
end

