-- ==== Sys2Proof/Laws/Ops.lean ====
section
/-! SUPPORT. One lemma for each shared operation, saying once everything it can answer, and the inversion of one clock
edge. -/

namespace Sys2Proof.Laws

open Sys2Proof Sys2Proof.Machine

/-! ### Lookup and the checks -/

theorem variantEnabled_idOf (p : Params) (vid : VidField) (h : vid.toNat < 8) :
    variantEnabled p (variantIdOf vid) = p.enabled.getLsbD vid.toNat := by
  have : (variantIdOf vid).toNat = vid.toNat := by
    simp [variantIdOf, BitVec.extractLsb'_toNat, Nat.mod_eq_of_lt h]
  simp [variantEnabled, this]

theorem variantIdOf_eq (vid : VidField) : variantIdOf vid = BitVec.ofNat 3 vid.toNat := by
  apply BitVec.eq_of_toNat_eq
  simp [variantIdOf, BitVec.extractLsb'_toNat]

/-- `Lookup`, by cases (R82). -/
theorem lookup_cases (p : Params) (vid : VidField) :
    (lookup p vid = .error .unknownVariant ∧ (8 ≤ vid.toNat ∨ variantEnabled p (variantIdOf vid) = false)) ∨
    (lookup p vid = .ok (VAR (variantIdOf vid)) ∧ vid.toNat < 8 ∧ variantEnabled p (variantIdOf vid) = true) := by
  unfold lookup
  split
  · exact .inl ⟨rfl, ‹_›⟩
  · rename_i h
    simp only [not_or, not_le, Bool.not_eq_false] at h
    exact .inr ⟨rfl, h⟩

/-- The checks of START and TBLRD, by cases (R166). -/
theorem withVariant_cases (vid : VidField) (s : State) (run : Variant → Outcome) :
    (withVariant vid s run = raise .unknownVariant s ∧
      (8 ≤ vid.toNat ∨ variantEnabled s.cfg (variantIdOf vid) = false)) ∨
    (withVariant vid s run = raise .notInitialised s ∧ s.ready = false ∧ vid.toNat < 8 ∧
      variantEnabled s.cfg (variantIdOf vid) = true) ∨
    (withVariant vid s run = run (VAR (variantIdOf vid)) ∧ s.ready = true ∧ vid.toNat < 8 ∧
      variantEnabled s.cfg (variantIdOf vid) = true) := by
  unfold withVariant
  rcases lookup_cases s.cfg vid with ⟨h, hv⟩ | ⟨h, hv⟩
  · exact .inl ⟨by rw [h], hv⟩
  · cases hr : s.ready
    · exact .inr (.inl ⟨by simp [h], rfl, hv⟩)
    · exact .inr (.inr ⟨by simp [h], rfl, hv⟩)

/-- The checks of BYTE and FINAL, by cases (R166). -/
theorem inCalculation_cases (s : State) (run : Outcome) :
    (inCalculation s run = raise .notInitialised s ∧ s.ready = false) ∨
    (inCalculation s run = raise .noActiveCalculation s ∧ s.ready = true ∧ s.active = false) ∨
    (inCalculation s run = run ∧ s.ready = true ∧ s.active = true) := by
  unfold inCalculation
  cases s.ready <;> cases s.active <;> simp

/-! ### What a command can do -/

/-- Everything a command can answer: an error, or its own effect (R69, R167). -/
theorem exec_cases (i : Instr) (s : State) :
    (∃ e, exec i s = raise e s) ∨
    (i = .status ∧ exec i s = respond (statusView s) s) ∨
    (i = .init ∧ exec i s = execInit s) ∨
    (∃ vid, i = .start vid ∧ s.ready = true ∧ vid.toNat < 8 ∧ variantEnabled s.cfg (variantIdOf vid) = true ∧
      exec i s = respond 0x0000#16
        { s with cur := variantIdOf vid, acc := seed (VAR (variantIdOf vid)), active := true }) ∨
    (∃ b, i = .byte b ∧ s.ready = true ∧ s.active = true ∧
      exec i s = respond 0x0000#16 { s with acc := update (VAR s.cur).refin (tblEntry s s.cur) s.acc b }) ∨
    (i = .final ∧ s.ready = true ∧ s.active = true ∧
      exec i s = respond (finalize (VAR s.cur) s.acc) { s with active := false }) ∨
    (∃ vid j, i = .tblrd vid j ∧ s.ready = true ∧ vid.toNat < 8 ∧ variantEnabled s.cfg (variantIdOf vid) = true ∧
      exec i s = respond (tblEntry s (variantIdOf vid) j) s) := by
  cases i with
  | status => exact .inr (.inl ⟨rfl, rfl⟩)
  | init => exact .inr (.inr (.inl ⟨rfl, rfl⟩))
  | start vid =>
    rcases withVariant_cases vid s _ with ⟨h, -⟩ | ⟨h, -⟩ | ⟨h, hr, hv⟩
    · exact .inl ⟨_, h⟩
    · exact .inl ⟨_, h⟩
    · exact .inr (.inr (.inr (.inl ⟨vid, rfl, hr, hv.1, hv.2, h⟩)))
  | byte b =>
    rcases inCalculation_cases s _ with ⟨h, -⟩ | ⟨h, -⟩ | ⟨h, hr, ha⟩
    · exact .inl ⟨_, h⟩
    · exact .inl ⟨_, h⟩
    · exact .inr (.inr (.inr (.inr (.inl ⟨b, rfl, hr, ha, h⟩))))
  | final =>
    rcases inCalculation_cases s _ with ⟨h, -⟩ | ⟨h, -⟩ | ⟨h, hr, ha⟩
    · exact .inl ⟨_, h⟩
    · exact .inl ⟨_, h⟩
    · exact .inr (.inr (.inr (.inr (.inr (.inl ⟨rfl, hr, ha, h⟩)))))
  | tblrd vid j =>
    rcases withVariant_cases vid s _ with ⟨h, -⟩ | ⟨h, -⟩ | ⟨h, hr, hv⟩
    · exact .inl ⟨_, h⟩
    · exact .inl ⟨_, h⟩
    · exact .inr (.inr (.inr (.inr (.inr (.inr ⟨vid, j, rfl, hr, hv.1, hv.2, h⟩)))))

/-- What a command's next state is: an error's, or its own effect's. -/
theorem exec_next (i : Instr) (s t : State) (h : exec i s = .next t) :
    (∃ e, t = s.answer (Response.error e)) ∨
    (i = .status ∧ t = s.answer (Response.ok (statusView s))) ∨
    (i = .init ∧ t = ({ s with tbl := Memory.writeAll (initCells s.cfg) s.tbl, ready := true } : State).answerInit
      (Response.ok 0x0000#16)) ∨
    (∃ vid, i = .start vid ∧ s.ready = true ∧ vid.toNat < 8 ∧ variantEnabled s.cfg (variantIdOf vid) = true ∧
      t = ({ s with cur := variantIdOf vid, acc := seed (VAR (variantIdOf vid)), active := true } : State).answer
        (Response.ok 0x0000#16)) ∨
    (∃ b, i = .byte b ∧ s.ready = true ∧ s.active = true ∧
      t = ({ s with acc := update (VAR s.cur).refin (tblEntry s s.cur) s.acc b } : State).answer
        (Response.ok 0x0000#16)) ∨
    (i = .final ∧ s.ready = true ∧ s.active = true ∧
      t = ({ s with active := false } : State).answer (Response.ok (finalize (VAR s.cur) s.acc))) ∨
    (∃ vid j, i = .tblrd vid j ∧ s.ready = true ∧ vid.toNat < 8 ∧ variantEnabled s.cfg (variantIdOf vid) = true ∧
      t = s.answer (Response.ok (tblEntry s (variantIdOf vid) j))) := by
  rcases exec_cases i s with ⟨e, h'⟩ | ⟨hi, h'⟩ | ⟨hi, h'⟩ | ⟨v, hi, hr, hv, he, h'⟩ | ⟨b, hi, hr, ha, h'⟩ |
    ⟨hi, hr, ha, h'⟩ | ⟨v, j, hi, hr, hv, he, h'⟩ <;> rw [h'] at h <;> cases h
  · exact .inl ⟨e, rfl⟩
  · exact .inr (.inl ⟨hi, rfl⟩)
  · exact .inr (.inr (.inl ⟨hi, rfl⟩))
  · exact .inr (.inr (.inr (.inl ⟨v, hi, hr, hv, he, rfl⟩)))
  · exact .inr (.inr (.inr (.inr (.inl ⟨b, hi, hr, ha, rfl⟩))))
  · exact .inr (.inr (.inr (.inr (.inr (.inl ⟨hi, hr, ha, rfl⟩)))))
  · exact .inr (.inr (.inr (.inr (.inr (.inr ⟨v, j, hi, hr, hv, he, rfl⟩)))))

/-- Every command answers, in every state (R13, R160). -/
theorem exec_total (i : Instr) (s : State) : ∃ t, exec i s = .next t := by
  rcases exec_cases i s with ⟨e, h⟩ | ⟨-, h⟩ | ⟨-, h⟩ | ⟨_, -, -, -, -, h⟩ | ⟨_, -, -, -, h⟩ | ⟨-, -, -, h⟩ |
    ⟨_, _, -, -, -, -, h⟩ <;> exact ⟨_, h⟩

/-- What accepting a word does: an illegal word raises, a command runs (R69). -/
theorem accept_cases (c : Word) (s : State) :
    (∃ r, decode c = .error r ∧ accept c s = raise .illegalCommand s) ∨
    (∃ i, decode c = .ok i ∧ accept c s = exec i s) := by
  unfold accept
  cases h : decode c with
  | error r => exact .inl ⟨r, rfl, rfl⟩
  | ok i => exact .inr ⟨i, rfl, rfl⟩

/-- One clock edge, by cases (R61, R190). -/
theorem step_cases (s : State) :
    (s.edge.rstN = false ∧ step s = .next s.nextEdge.resetEvent) ∨
    (s.edge.rstN = true ∧ s.flight = none ∧ s.edge.cmdValid = false ∧ step s = .next s.nextEdge) ∨
    (s.edge.rstN = true ∧ s.flight = none ∧ s.edge.cmdValid = true ∧ step s = accept s.edge.cmd s.nextEdge) ∨
    (∃ r, s.edge.rstN = true ∧ s.flight = some { rsp := r, wait := 0 } ∧ s.edge.rspReady = true ∧
      step s = .next (s.nextEdge.transfer r)) ∨
    (∃ r, s.edge.rstN = true ∧ s.flight = some { rsp := r, wait := 0 } ∧ s.edge.rspReady = false ∧
      step s = .next s.nextEdge) ∨
    (∃ r n, s.edge.rstN = true ∧ s.flight = some { rsp := r, wait := n + 1 } ∧
      step s = .next (s.nextEdge.countDown r n)) := by
  cases hr : s.edge.rstN
  · exact .inl ⟨rfl, by simp [step, clockEdge, hr]⟩
  · cases hf : s.flight with
    | none =>
      cases hv : s.edge.cmdValid
      · exact .inr (.inl ⟨rfl, rfl, rfl, by simp [step, clockEdge, hr, hf, idleEdge, hv]⟩)
      · exact .inr (.inr (.inl ⟨rfl, rfl, rfl, by simp [step, clockEdge, hr, hf, idleEdge, hv]⟩))
    | some f =>
      obtain ⟨r, w⟩ := f
      cases w with
      | zero =>
        cases hy : s.edge.rspReady
        · exact .inr (.inr (.inr (.inr (.inl ⟨r, rfl, rfl, rfl, by simp [step, clockEdge, hr, hf, busyEdge, hy]⟩))))
        · exact .inr (.inr (.inr (.inl ⟨r, rfl, rfl, rfl, by simp [step, clockEdge, hr, hf, busyEdge, hy]⟩)))
      | succ n =>
        exact .inr (.inr (.inr (.inr (.inr ⟨r, n, rfl, rfl, by simp [step, clockEdge, hr, hf, busyEdge]⟩))))

/-- A run of `n + 1` edges is one step and then a run of `n`. -/
theorem core_run_succ (n : Nat) (s : State) :
    Host.Core.run core (n + 1) s =
      match step s with
      | .next t => Host.Core.run core n t
      | .fault f => .fault f
      | .refused r => .refused r := by
  have e : core.step s = step s := rfl
  simp only [Host.Core.run, e]
  cases step s <;> rfl

end Sys2Proof.Laws
end

