-- ==== Sys2Proof/Laws/PerInstr.lean ====
section
/-! SUPPORT. The statements made for every command: its encoding carries its own operation code in `OP` (R65). -/

namespace Sys2Proof.Laws.OpcodeOf

open Sys2Proof Sys2Proof.Machine

/-- The `OP` column of R65. -/
def opcode : Instr → BitVec 4
  | .status => 0x0#4
  | .init => 0x1#4
  | .start _ => 0x2#4
  | .byte _ => 0x3#4
  | .final => 0x4#4
  | .tblrd _ _ => 0x5#4

/-- The encoding of the command has the opcode map's number in bits 15:12. -/
def Statement (i : Instr) : Prop := opField (encode i) = opcode i

theorem status : Statement .status := opField_commandWord _ _ _
theorem init : Statement .init := opField_commandWord _ _ _
theorem start (vid : VidField) : Statement (.start vid) := opField_commandWord _ _ _
theorem byte (b : Byte) : Statement (.byte b) := opField_commandWord _ _ _
theorem final : Statement .final := opField_commandWord _ _ _
theorem tblrd (vid : VidField) (i : Byte) : Statement (.tblrd vid i) := opField_commandWord _ _ _

end Sys2Proof.Laws.OpcodeOf
end

