-- ==== Sys2Proof/Tests/Slice0.lean ====
section
/-! SUPPORT. The model's own tests. Words, tables and responses come from spec/ (the section is named with each), never
from the model. The witnesses show for each statement of Obligations.lean that its hypotheses can be met. -/

namespace Sys2Proof.Tests

open Sys2Proof Sys2Proof.Machine Sys2Proof.Laws

/-! ### Well-formedness: an ill-formed term for each check (R72) -/

theorem test_wf_refuses_start_16 : (AsmLine.start 16).wellFormed = false := by decide
theorem test_wf_refuses_byte_256 : (AsmLine.byte 256).wellFormed = false := by decide
theorem test_wf_refuses_tblrd_variant_16 : (AsmLine.tblrd 16 0).wellFormed = false := by decide
theorem test_wf_refuses_tblrd_index_256 : (AsmLine.tblrd 0 256).wellFormed = false := by decide
theorem test_wf_refuses_calc_variant_16 : (AsmLine.calc 16 []).wellFormed = false := by decide
theorem test_wf_refuses_calc_byte_256 : (AsmLine.calc 0 [255, 256]).wellFormed = false := by decide

/-! ### Decoding: words written out from R65, and vectors 2.8 -/

theorem test_decode_status : decode 0b0000000000000000#16 = .ok .status := by decide
theorem test_decode_init : decode 0b0001000000000000#16 = .ok .init := by decide
theorem test_decode_start_7 : decode 0b0010011100000000#16 = .ok (.start 7#4) := by decide
theorem test_decode_byte_31 : decode 0b0011000000110001#16 = .ok (.byte 0x31#8) := by decide
theorem test_decode_final : decode 0b0100000000000000#16 = .ok .final := by decide
theorem test_decode_tblrd_15_80 : decode 0b0101111110000000#16 = .ok (.tblrd 15#4 0x80#8) := by decide
theorem test_decode_reserved_fields :
    [0x0001#16, 0x0100#16, 0x1001#16, 0x1F00#16, 0x2301#16, 0x3100#16, 0x4001#16, 0x4800#16].all
      (fun c => decode c == .error .reservedField) = true := by decide
theorem test_decode_reserved_opcodes :
    [0x6000#16, 0x9ABC#16, 0xF000#16, 0xFFFF#16].all (fun c => decode c == .error .reservedOpcode) = true := by decide

/-! ### The datapath: vectors 2.1 to 2.7 -/

theorem test_bitReverse16 : bitReverse16 0x1021#16 = 0x8408#16 ∧ bitReverse16 0x1234#16 = 0x2C48#16 := by decide
theorem test_bitReverse8 : bitReverse8 0x31#8 = 0x8C#8 := by decide
theorem test_buildTable_left : buildTable 0x1021#16 false 0xFF#8 = 0x1EF0#16 ∧
    buildTable 0xC867#16 false 0x80#8 = 0x5E5A#16 := by decide
theorem test_buildTable_right : buildTable 0x1021#16 true 0x01#8 = 0x1189#16 ∧
    buildTable 0xFFFF#16 true 0x40#8 = 0x8000#16 := by decide +kernel
theorem test_seed_reflected :
    seed { poly := 0#16, init := 0x1D0F#16, refin := true, refout := true, xorout := 0#16 } = 0xF0B8#16 := by decide
theorem test_update : update false (buildTable 0x8005#16 false) 0x1234#16 0x56#8 = 0x3598#16 ∧
    update true (buildTable 0x8005#16 true) 0x1234#16 0x56#8 = 0xE993#16 := by decide
theorem test_finalize_reverses :
    finalize { poly := 0#16, init := 0#16, refin := true, refout := false, xorout := 0x00FF#16 } 0x0001#16 =
      0x80FF#16 := by decide

/-- The message "123456789" (R14). -/
def checkMessage : List Byte := [0x31#8, 0x32#8, 0x33#8, 0x34#8, 0x35#8, 0x36#8, 0x37#8, 0x38#8, 0x39#8]

/-- Section 1.1: the eight check values, MAXIM's as 90_conflicts.md C2 corrects it. -/
theorem test_check_values :
    (List.range 8).map (fun v => calculate (VAR (BitVec.ofNat 3 v)) checkMessage) =
      [0x906E#16, 0x2189#16, 0x29B1#16, 0x4B37#16, 0xB4C8#16, 0x31C3#16, 0xBB3D#16, 0x44C2#16] := by decide +kernel

/-- Section 2.7: a parameter set with `refin ≠ refout`. -/
theorem test_calculate_mixed_reflection :
    calculate { poly := 0x8005#16, init := 0x1D0F#16, refin := true, refout := false, xorout := 0x0000#16 }
      checkMessage = 0x061F#16 := by decide +kernel

/-! ### One command each, on small states: sections 2.9, 2.10 and 3 -/

/-- A state of the default build with `ready` set. -/
def readyState (active : Bool) (cur : VariantId) (acc : Word) (tbl : Memory) : State :=
  { State.reset with ready := true, active := active, cur := cur, acc := acc, tbl := tbl }

/-- Some fields of a next state: the response, then `ready`, `active`, `cur` and `acc`. -/
def seen : Outcome → Option (Option Response × Bool × Bool × VariantId × Word)
  | .next t => some (t.flight.map (·.rsp), t.ready, t.active, t.cur, t.acc)
  | .fault _ => none
  | .refused _ => none

/-- The response `(err, code, data)`. -/
def rsp (err : Bool) (code : BitVec 3) (data : Word) : Option Response := some { err := err, code := code, data := data }

theorem test_status_active :
    seen (exec .status (readyState true 3#3 0xFFFF#16 [])) =
      some (rsp false 0#3 0xFF0F#16, true, true, 3#3, 0xFFFF#16) := by decide
theorem test_init_keeps_the_calculation :
    seen (exec .init (readyState true 3#3 0x947E#16 [])) =
      some (rsp false 0#3 0x0000#16, true, true, 3#3, 0x947E#16) := by decide
theorem test_init_builds_modbus_80 :
    (match exec .init State.reset with
      | .next t => tblEntry t 3#3 0x80#8
      | _ => 0#16) = 0xA001#16 := by decide +kernel
theorem test_start_modbus :
    seen (exec (.start 3#4) (readyState false 0#3 0x1234#16 [])) =
      some (rsp false 0#3 0x0000#16, true, true, 3#3, 0xFFFF#16) := by decide
theorem test_start_8_before_ready :
    seen (exec (.start 8#4) State.reset) = some (rsp true 1#3 0x0000#16, false, false, 0#3, 0x0000#16) := by decide
theorem test_byte_modbus_1 :
    seen (exec (.byte 0x31#8) (readyState true 3#3 0xFFFF#16 [(3 * 256 + 0xCE, 0x9481#16)])) =
      some (rsp false 0#3 0x0000#16, true, true, 3#3, 0x947E#16) := by decide
theorem test_byte_ccitt_false_1 :
    seen (exec (.byte 0x31#8) (readyState true 2#3 0xFFFF#16 [(2 * 256 + 0xCE, 0x3882#16)])) =
      some (rsp false 0#3 0x0000#16, true, true, 2#3, 0xC782#16) := by decide
theorem test_final_usb :
    seen (exec .final (readyState true 4#3 0x4B37#16 [])) =
      some (rsp false 0#3 0xB4C8#16, true, false, 4#3, 0x4B37#16) := by decide
theorem test_final_outside_a_calculation :
    seen (exec .final (readyState false 0#3 0x1234#16 [])) =
      some (rsp true 3#3 0x0000#16, true, false, 0#3, 0x1234#16) := by decide
theorem test_tblrd_x25_ff :
    seen (exec (.tblrd 0#4 0xFF#8) (readyState false 0#3 0x1234#16 [(0xFF, 0x0F78#16)])) =
      some (rsp false 0#3 0x0F78#16, true, false, 0#3, 0x1234#16) := by decide
theorem test_tblrd_before_ready :
    seen (exec (.tblrd 3#4 0x80#8) State.reset) = some (rsp true 2#3 0x0000#16, false, false, 0#3, 0x0000#16) := by
  decide
theorem test_step_illegal_word :
    seen (step (State.reset.withFetchWord 16 0x3100)) =
      some (rsp true 4#3 0x0000#16, false, false, 0#3, 0x0000#16) := by decide

/-! ### The assembler: R72 to R74 -/

theorem test_assemble_names :
    assembleText "  start Ccitt_False ; a comment" = some [0x2200#16] ∧
      assembleText "TBLRD modbus, 0x80" = some [0x5380#16] := by decide +kernel
theorem test_assemble_calc :
    assembleText "CALC X25, '1', 0xff" = some [0x2000#16, 0x3031#16, 0x30FF#16, 0x4000#16] ∧
      assembleText "CALC 3, \"12\"" = some [0x2300#16, 0x3031#16, 0x3032#16, 0x4000#16] := by decide +kernel
/-- R74: no bytes, in the text form and in the number form (log entry 15). -/
theorem test_assemble_calc_empty :
    assembleText "CALC 3, \"\"" = some [0x2300#16, 0x4000#16] ∧
      assembleText "CALC 3" = some [0x2300#16, 0x4000#16] ∧ assembleText "CALC 3," = none := by decide +kernel
theorem test_assemble_refuses : assembleText "BYTE 256" = none ∧ assembleText "START 16" = none := by decide +kernel

/-! ### Witnesses for the statements -/

/-- A build with latencies above 1. -/
def slowBuild : Params := { enabled := 0xFF#8, tInit := 3, tCmd := 2 }

/-- A running calculation of MODBUS after INIT, in build `p`. -/
def running (p : Params) : State :=
  { State.resetWith p with
    ready := true
    active := true
    cur := 3#3
    acc := 0xFFFF#16
    tbl := Memory.writeAll (initCells p) [] }

theorem running_inv (p : Params) (h : variantEnabled p 3#3 = true) : (running p).Inv where
  activeIsReady _ := ⟨rfl, h⟩
  tablesBuilt _ v i hv := find_afterInit_enabled p [] v i hv
  memoryWf := writeAll_wf _ (initCells_wf p) _ List.Pairwise.nil
  onlyEnabledTables c hc := by
    rcases mem_writeAll _ _ c hc with h | h
    · obtain ⟨v, i, hv, rfl⟩ := (mem_initCells p c).mp h
      exact ⟨v, i, rfl, hv⟩
    · cases h
  flightWf f hf := by cases hf
  takenWf r hr := by cases hr

/-- The host sends a word. -/
def send (c : Word) : HostEdge := { rstN := true, cmdValid := true, cmd := c, rspReady := false }

/-- The host waits, taking a response or not. -/
def wait (take : Bool) : HostEdge := { rstN := true, cmdValid := false, cmd := 0x0000#16, rspReady := take }

/-- The host resets. -/
def resetDrive : HostEdge := { rstN := false, cmdValid := true, cmd := 0x1000#16, rspReady := true }

/-- A state with this command in flight and this drive to come. -/
def busy (w : Nat) (bus : List HostEdge) : State :=
  { State.reset with flight := some { rsp := { err := false, code := 0#3, data := 0x0000#16 }, wait := w }, bus := bus }

/-- The state with this drive to come. -/
def driven (s : State) (bus : List HostEdge) : State := { s with bus := bus }

theorem witness_DecodeOfEncodeIsTheCommand : (Instr.tblrd 15#4 0xFF#8).wellFormed = true := by decide
theorem witness_EncodeOfDecodeIsTheWord : decode 0x5F80#16 = .ok (.tblrd 15#4 0x80#8) := by decide
theorem witness_OperandsAreTheWordsFields :
    decode 0x2F00#16 = .ok (.start 15#4) ∧ decode 0x30FF#16 = .ok (.byte 0xFF#8) ∧
      decode 0x5FFF#16 = .ok (.tblrd 15#4 0xFF#8) := by decide
theorem witness_ReservedWordsRaiseIllegalCommand :
    6 ≤ (0x6000#16).toNat / 4096 ∧ 6 ≤ (0xFFFF#16).toNat / 4096 ∧
    ((0x4001#16).toNat / 4096 = 4 ∧ (0x4001#16).toNat % 4096 ≠ 0) ∧
    ((0x1F00#16).toNat / 4096 = 1 ∧ (0x1F00#16).toNat % 4096 ≠ 0) ∧
    ((0x0001#16).toNat / 4096 = 0 ∧ (0x0001#16).toNat % 4096 ≠ 0) ∧
    ((0x2FFF#16).toNat / 4096 = 2 ∧ (0x2FFF#16).toNat % 256 ≠ 0) ∧
    ((0x3100#16).toNat / 4096 = 3 ∧ (0x3100#16).toNat / 256 % 16 ≠ 0) := by decide
theorem witness_AssemblerEncodesEachForm :
    (15 ≤ 15 ∧ 255 ≤ 255 ∧ ∀ b ∈ [0, 255], b ≤ 255) ∧ 15 < 16 ∧ 255 < 256 ∧ ∃ b ∈ [0, 256], 255 < b := by decide
theorem witness_StepRunsTheDecodedCommand :
    (driven State.reset [send 0x2F00#16]).flight = none ∧
      (driven State.reset [send 0x2F00#16]).bus = send 0x2F00#16 :: [] ∧
      decode 0x2F00#16 = .ok (.start 15#4) := by decide
theorem witness_PlacedWordRunsNext :
    decodeTableWord 16 0x57FF = some (.tblrd 7#4 0xFF#8) ∧ decodeTableWord 16 0x6000 = none := by decide
theorem witness_HandshakeEdges :
    ((driven State.reset [wait true]).flight = none ∧ (wait true).cmdValid = false) ∧
    (busy 1 [wait true]).flight.map (·.wait) = some (0 + 1) ∧
    ((busy 0 [wait false]).flight.map (·.wait) = some 0 ∧ (wait false).rspReady = false) ∧
    ((busy 0 [wait true]).flight.map (·.wait) = some 0 ∧ (wait true).rspReady = true) ∧
    (wait true).rstN = true ∧ (wait false).rstN = true := by decide
theorem witness_PinsFollowTheHandshake :
    (busy 0 [wait true]).edge.rstN = true ∧
      (busy 0 [wait true]).flight = some { rsp := { err := false, code := 0#3, data := 0x0000#16 }, wait := 0 } ∧
      (busy 1 []).pins.rspValid = false := by decide
theorem witness_ResetEdgeClearsTheEngine :
    (busy 0 [resetDrive, wait true]).bus = resetDrive :: [wait true] ∧ resetDrive.rstN = false ∧
      (([wait true] : List HostEdge).headD HostEdge.idle).rstN = true := by decide
theorem witness_LatenciesKeepTheirParameters :
    (∃ t f, accept 0x1000#16 (running slowBuild) = .next t ∧ t.flight = some f) ∧
      ∃ t f, accept 0x0000#16 (running slowBuild) = .next t ∧ t.flight = some f := ⟨⟨_, _, rfl, rfl⟩, _, _, rfl, rfl⟩
theorem witness_AcceptedCommandIsAnsweredInTime :
    (driven (running slowBuild) (send 0x4000#16 :: [wait false] ++ [])).Inv ∧
      (driven (running slowBuild) (send 0x4000#16 :: [wait false] ++ [])).flight = none ∧
      (send 0x4000#16).rstN = true ∧ (send 0x4000#16).cmdValid = true ∧
      (∀ e' ∈ [wait false], e'.rstN = true ∧ e'.rspReady = false) ∧
      [wait false].length = (if (0x4000#16 : Word) = 0x1000#16 then max 1 slowBuild.tInit else max 1 slowBuild.tCmd) - 1 :=
  have h := running_inv slowBuild (by decide)
  ⟨⟨h.1, h.2, h.3, h.4, h.5, h.6⟩, rfl, rfl, rfl, by decide, by decide⟩
theorem witness_OnlyCommandsAndResetTouchTheEngine :
    (∃ t, step (busy 1 [wait true]) = .next t) ∧ ¬ (busy 1 [wait true]).Resets ∧
      ∀ c, ¬ (busy 1 [wait true]).Accepts c :=
  ⟨⟨_, rfl⟩, Bool.noConfusion, fun _ h => nomatch h.2.2.2⟩
theorem witness_HandshakeRefinesTheTransaction :
    (running slowBuild).flight = none ∧ (∃ t r, transact 0x4000#16 (running slowBuild) = some (t, r)) ∧
      [wait true].length = (if (0x4000#16 : Word) = 0x1000#16 then initLatency slowBuild else cmdLatency (running slowBuild)) - 1 ∧
      (∀ e' ∈ [wait true], e'.rstN = true) ∧ (∀ e' ∈ [wait false], e'.rstN = true ∧ e'.rspReady = false) ∧
      (wait true).rstN = true ∧ (wait true).rspReady = true :=
  ⟨rfl, ⟨_, _, rfl⟩, by decide, by decide, by decide, rfl, rfl⟩
theorem witness_ConfigurationIsConstant : ∃ t, step (driven State.reset [resetDrive]) = .next t := ⟨_, rfl⟩
theorem witness_OnlyInitSetsReadyOnlyResetClearsIt :
    (State.reset.ready = false ∧ ∃ t, step (driven State.reset [send 0x1000#16]) = .next t ∧ t.ready = true) ∧
      (running slowBuild).ready = true ∧ ∃ t, step (driven (running slowBuild) [resetDrive]) = .next t ∧ t.ready = false :=
  ⟨⟨rfl, _, rfl, rfl⟩, rfl, _, rfl, rfl⟩
theorem witness_OnlyStartSetsActive :
    (∃ t, step (driven (readyState false 0#3 0#16 []) [send 0x2700#16]) = .next t ∧ t.active = true) ∧
      ∃ t, step (driven (readyState true 0#3 0#16 []) [send 0x4000#16]) = .next t ∧ t.active = false :=
  ⟨⟨_, rfl, rfl⟩, _, rfl, rfl⟩
theorem witness_OnlyStartAndResetWriteCur :
    ∃ t, step (driven (readyState false 0#3 0#16 []) [send 0x2700#16]) = .next t ∧ t.cur ≠ 0#3 :=
  ⟨_, rfl, by decide⟩
theorem witness_OnlyStartAndByteWriteAcc :
    ∃ t, step (driven (readyState true 3#3 0xFFFF#16 [(3 * 256 + 0xCE, 0x9481#16)]) [send 0x3031#16]) = .next t ∧
      t.acc ≠ 0xFFFF#16 :=
  ⟨_, rfl, by decide⟩
theorem witness_OnlyInitWritesTables :
    ∃ t, step (driven (readyState false 0#3 0#16 [(0x80, 0xBEEF#16)]) [send 0x1000#16]) = .next t ∧
      tblEntry t 0#3 0x80#8 ≠ tblEntry (readyState false 0#3 0#16 [(0x80, 0xBEEF#16)]) 0#3 0x80#8 :=
  ⟨_, rfl, by decide +kernel⟩
theorem witness_LookupRefusesUnknownAndDisabled :
    (8 ≤ (8#4).toNat ∧ 8 ≤ (15#4).toNat) ∧ (0x08#8).getLsbD (4#4).toNat = false ∧
      (7#4).toNat < 8 ∧ (0xFF#8).getLsbD (7#4).toNat = true := by decide
theorem witness_ResponsesHaveTheirForm :
    (∃ t f, accept 0x2300#16 (running slowBuild) = .next t ∧ t.flight = some f ∧ f.rsp.err = false) ∧
      (∃ t f, accept 0x2F00#16 (running slowBuild) = .next t ∧ t.flight = some f ∧ f.rsp.err = true) ∧
      (0x1000#16).toNat / 4096 = 1 ∧ (0x2300#16).toNat / 4096 = 2 ∧ (0x30FF#16).toNat / 4096 = 3 :=
  ⟨⟨_, _, rfl, rfl, rfl⟩, ⟨_, _, rfl, rfl, rfl⟩, by decide⟩
theorem witness_ErrorPriority :
    (decode 0x3100#16 = .error .reservedField ∧ decode 0x0000#16 = .ok .status ∧ decode 0x2800#16 = .ok (.start 8#4) ∧
      decode 0x57FF#16 = .ok (.tblrd 7#4 0xFF#8) ∧ decode 0x30FF#16 = .ok (.byte 0xFF#8) ∧ decode 0x4000#16 = .ok .final) ∧
      8 ≤ (8#4).toNat ∧ (7#4).toNat < 8 ∧ State.reset.cfg.enabled.getLsbD 7 = true ∧ State.reset.ready = false ∧
      ((readyState false 0#3 0#16 []).ready = true ∧ (readyState false 0#3 0#16 []).active = false) ∧
      ((readyState true 7#3 0#16 []).ready = true ∧ (readyState true 7#3 0#16 []).active = true ∧
        (readyState true 7#3 0#16 []).cfg.enabled.getLsbD (readyState true 7#3 0#16 []).cur.toNat = true) := by decide
theorem witness_ErrorsChangeNothing :
    (∃ t f, accept 0x2F00#16 (running slowBuild) = .next t ∧ t.flight = some f ∧ f.rsp.err = true) ∧
      ∃ u, accept 0x4000#16 (running slowBuild) = .next u := ⟨⟨_, _, rfl, rfl, rfl⟩, _, rfl⟩
/-- Also a witness of EveryStepKeepsTheInvariant, with a step that runs FINAL. -/
theorem witness_EveryWordIsAnswered :
    (running slowBuild).Inv ∧ ∃ t, step ((running slowBuild).withFetchWord 16 0x4000) = .next t :=
  ⟨running_inv slowBuild (by decide), _, rfl⟩
theorem witness_EveryStepKeepsTheInvariant :
    (driven (running slowBuild) [send 0x30FF#16]).Inv ∧ ∃ t, step (driven (running slowBuild) [send 0x30FF#16]) = .next t :=
  have h := running_inv slowBuild (by decide)
  ⟨⟨h.1, h.2, h.3, h.4, h.5, h.6⟩, _, rfl⟩
/-- START and TBLRD: the operands and states of each clause, at the ends of the ranges. -/
theorem witness_StartBeginsACalculation_TblrdAnswersOneEntry :
    ((7#4).toNat < 8 ∧ (readyState false 0#3 0#16 []).cfg.enabled.getLsbD (7#4).toNat = true ∧
      (readyState false 0#3 0#16 []).ready = true) ∧
    (8 ≤ (8#4).toNat ∧ 8 ≤ (15#4).toNat) ∧
    (State.resetWith { enabled := 0x08#8, tInit := 1, tCmd := 1 }).cfg.enabled.getLsbD (7#4).toNat = false ∧
    ((7#4).toNat < 8 ∧ State.reset.cfg.enabled.getLsbD (7#4).toNat = true ∧ State.reset.ready = false) := by decide
theorem witness_TblrdAnswersOneEntry_inv : (running slowBuild).Inv ∧ (running slowBuild).ready = true :=
  ⟨running_inv slowBuild (by decide), rfl⟩
/-- BYTE and FINAL: a state of each clause, a reflected and a non-reflected variant. -/
theorem witness_ByteFoldsOneByte_FinalAnswersTheChecksum :
    ((readyState true 7#3 0#16 []).ready = true ∧ (readyState true 7#3 0#16 []).active = true ∧
      variantEnabled (readyState true 7#3 0#16 []).cfg 7#3 = true ∧ (VAR 7#3).refin = true ∧ (VAR 5#3).refin = false) ∧
    State.reset.ready = false ∧
    ((readyState false 0#3 0#16 []).ready = true ∧ (readyState false 0#3 0#16 []).active = false) := by decide
/-- A state no run reaches: `cur` names a disabled variant during a calculation. -/
def noTable : State := { readyState true 7#3 0#16 [] with cfg := { enabled := 0x7F#8, tInit := 1, tCmd := 1 } }
/-- BYTE runs there too (R13): success, and the entry read is the free value. -/
theorem test_byte_without_a_table :
    seen (exec (.byte 0xFF#8) noTable) =
      some (rsp false 0#3 0x0000#16, true, true, 7#3, 0x0000#16 ^^^ Config.unspecifiedEntry 0 (7 * 256 + 0xFF)) := by
  rfl
theorem witness_Frames :
    (∃ t, exec .status (running slowBuild) = .next t) ∧ (∃ t, exec (.tblrd 7#4 0xFF#8) (running slowBuild) = .next t) ∧
      (∃ t, exec .init (running slowBuild) = .next t) ∧ (∃ t, exec (.start 7#4) (running slowBuild) = .next t) ∧
      (∃ t, exec (.byte 0xFF#8) (running slowBuild) = .next t) ∧ ∃ t, exec .final (running slowBuild) = .next t :=
  ⟨⟨_, rfl⟩, ⟨_, rfl⟩, ⟨_, rfl⟩, ⟨_, rfl⟩, ⟨_, rfl⟩, _, rfl⟩
theorem witness_InitFrame : variantEnabled noTable.cfg 7#3 = false ∧ ∃ t, exec .init noTable = .next t :=
  ⟨by decide, _, rfl⟩
theorem witness_ReachableStatesMeetI1AndI2 :
    ∃ s, Host.Core.run core 3
        { State.resetWith State.reset.cfg with
          bus := [send 0x1000#16, wait true, send 0x2700#16]
          pace := [] } = .next s ∧ s.active = true ∧ s.ready = true ∧ s.cfg.enabled.getLsbD s.cur.toNat = true :=
  ⟨_, rfl, rfl, rfl, by decide⟩
theorem witness_TableMemoryStaysCanonical :
    Memory.wf (driven (running slowBuild) [send 0x1000#16]).tbl ∧
      ∃ t, step (driven (running slowBuild) [send 0x1000#16]) = .next t :=
  ⟨(running_inv slowBuild (by decide)).3, _, rfl⟩
theorem witness_InitIsTheLoopOfSingleWrites : Memory.wf [(0x7F, 0xBEEF#16), (0x7FF, 0x0000#16)] := by decide
theorem witness_InitIsIdempotent :
    ∃ t u, exec .init (running slowBuild) = .next t ∧ exec .init t = .next u := ⟨_, _, rfl, rfl⟩
theorem witness_InitDuringACalculationIsHarmless :
    (running slowBuild).Inv ∧ (running slowBuild).active = true ∧ ∃ t, exec .init (running slowBuild) = .next t :=
  ⟨running_inv slowBuild (by decide), rfl, _, rfl⟩
theorem witness_CalculationAnswersCalculate :
    (running slowBuild).Inv ∧ (running slowBuild).ready = true ∧ variantEnabled (running slowBuild).cfg 7#3 = true :=
  ⟨running_inv slowBuild (by decide), rfl, by decide⟩
theorem witness_CalculationsArePure :
    (running slowBuild).Inv ∧ (running State.reset.cfg).Inv ∧ (running State.reset.cfg).ready = true ∧
      (7#4).toNat < 8 ∧ slowBuild.enabled.getLsbD (7#4).toNat = true ∧ State.reset.cfg.enabled.getLsbD (7#4).toNat = true ∧
      (∃ t rs, transactAll (encode (.start 7#4) :: [0xFF#8].map (fun b => encode (.byte b)) ++ [encode .final])
        (running slowBuild) = some (t, rs)) ∧
      ∃ t rs, transactAll (encode (.start 7#4) :: [0xFF#8].map (fun b => encode (.byte b)) ++ [encode .final])
        (running State.reset.cfg) = some (t, rs) :=
  ⟨running_inv slowBuild (by decide), running_inv _ (by decide), rfl, by decide, by decide, by decide, ⟨_, _, rfl⟩,
    _, _, rfl⟩

end Sys2Proof.Tests
end

section
/-! SUPPORT. What every command and every edge keeps: the form of a command's answer and the configuration, with the
statements of 00_scope.md that follow from them. -/

namespace Sys2Proof.Proofs

open Sys2Proof Sys2Proof.Machine Sys2Proof.Laws

/-! ### Responses -/

@[simp] theorem ok_wf (d : Word) : (Response.ok d).wf = true := rfl

@[simp] theorem error_wf (e : ErrorKind) : (Response.error e).wf = true := by
  cases e <;> rfl

/-! ### Every word is answered, and an answer keeps the configuration -/

/-- A command's next state holds one response of R70's form, and what lies outside R20's tuple is as before. -/
theorem exec_answers {i : Instr} {s t : State} (h : exec i s = .next t) : ∃ r, Answers s t r ∧ r.wf = true := by
  rcases exec_next i s t h with ⟨e, rfl⟩ | ⟨-, rfl⟩ | ⟨-, rfl⟩ | ⟨_, -, -, -, -, rfl⟩ | ⟨_, -, -, -, rfl⟩ |
    ⟨-, -, -, rfl⟩ | ⟨_, _, -, -, -, -, rfl⟩
  · exact ⟨_, ⟨rfl, rfl, rfl, rfl, rfl⟩, error_wf e⟩
  all_goals exact ⟨_, ⟨rfl, rfl, rfl, rfl, rfl⟩, ok_wf _⟩

/-- Every word is accepted in every state: an ILLEGAL word raises, a command completes (R13, R69). -/
theorem accept_total (c : Word) (s : State) : ∃ t, accept c s = .next t := by
  rcases accept_cases c s with ⟨_, -, h⟩ | ⟨i, -, h⟩
  · exact ⟨_, h⟩
  · exact h ▸ exec_total i s

/-- An accepted word, a command or ILLEGAL, is answered as `exec_answers` says of a command (R61, R165). -/
theorem accept_answers {c : Word} {s t : State} (h : accept c s = .next t) : ∃ r, Answers s t r ∧ r.wf = true := by
  rcases accept_cases c s with ⟨_, -, hc⟩ | ⟨i, -, hc⟩ <;> rw [hc] at h
  · cases h
    exact ⟨_, ⟨rfl, rfl, rfl, rfl, rfl⟩, error_wf .illegalCommand⟩
  · exact exec_answers h

theorem answers_cfg {s t : State} {r : Response} (h : Answers s t r) : t.cfg = s.cfg := by
  obtain ⟨-, -, -, hcfg, -⟩ := h
  exact hcfg

/-- A transaction is its acceptance with the response taken out of the engine (R62). -/
theorem transact_of_answers {c : Word} {s t : State} {r : Response} (h : accept c s = .next t) (ha : Answers s t r) :
    transact c s = some ({ t with flight := none }, r) := by
  obtain ⟨hr, -⟩ := ha
  obtain ⟨f, hf, rfl⟩ := Option.map_eq_some_iff.mp hr
  simp [transact, h, hf]

/-- An edge that accepts a word keeps `cfg` as the answer does, and no other edge writes it. -/
theorem step_cfg {s t : State} (h : step s = .next t) : t.cfg = s.cfg := by
  rcases step_cases s with ⟨-, hs⟩ | ⟨-, -, -, hs⟩ | ⟨-, -, -, hs⟩ | ⟨_, -, -, -, hs⟩ | ⟨_, -, -, -, hs⟩ |
    ⟨_, _, -, -, hs⟩ <;> rw [hs] at h
  case inr.inr.inl =>
    obtain ⟨r, ha, -⟩ := accept_answers h
    exact (answers_cfg ha).trans (nextEdge_cfg s)
  all_goals cases h; rfl

/-! ### The status view -/

/-- A concatenation is the number whose upper digit, in base `2 ^ n`, is the left part. -/
theorem toNat_append_eq_add {m n : Nat} (x : BitVec m) (y : BitVec n) :
    (x ++ y).toNat = x.toNat * 2 ^ n + y.toNat := by
  rw [BitVec.toNat_append, ← Nat.shiftLeft_add_eq_or_of_lt y.isLt, Nat.shiftLeft_eq]

/-- The fields of `SV` (R30) as one number. -/
theorem statusView_toNat (s : State) :
    (statusView s).toNat = s.cfg.enabled.toNat * 256 + s.cur.toNat * 4 + s.active.toNat * 2 + s.ready.toNat := by
  simp only [statusView, toNat_append_eq_add, BitVec.toNat_ofBool, BitVec.toNat_ofNat]
  omega

/-- While `ready` = `active` = 0 and `cur` = 0, as after reset, `SV` is `ENABLED << 8` (R30, R190). -/
theorem statusView_of_cleared {s : State} (hr : s.ready = false) (ha : s.active = false) (hc : s.cur = 0#3) :
    statusView s = s.cfg.enabled.setWidth 16 <<< 8 := by
  apply BitVec.eq_of_toNat_eq
  simp only [statusView_toNat, hr, ha, hc, BitVec.toNat_shiftLeft, BitVec.toNat_setWidth, Nat.shiftLeft_eq,
    BitVec.toNat_ofNat, Bool.toNat_false]
  omega

/-! ### The statements -/

/-- Settles O35: every word is accepted, and its answer is the transaction's response. -/
theorem stepIsTotal : Obligations.StepIsTotal := by
  refine ⟨exec_total, fun c s => ?_⟩
  obtain ⟨t, ht⟩ := accept_total c s
  obtain ⟨r, ha, hr⟩ := accept_answers ht
  exact ⟨_, r, transact_of_answers ht ha, hr, rfl, (answers_cfg ha :)⟩

/-- Settles O19, by the cases of one edge. -/
theorem configurationIsConstant : Obligations.ConfigurationIsConstant := by
  intro s t h
  exact step_cfg h

/-- Settles O14: the flags, `cur` and the engine are reset's own values, and the view follows from them. -/
theorem resetStateIsTheSpecs : Obligations.ResetStateIsTheSpecs :=
  ⟨fun _ => ⟨rfl, rfl, rfl, rfl, rfl, statusView_of_cleared rfl rfl rfl⟩, rfl,
    statusView_of_cleared rfl rfl rfl⟩

end Sys2Proof.Proofs
end

section
/-! SUPPORT. The state family (10_state.md): what one edge writes of R20's tuple, the statements that say who writes
what, and the invariant of R26 in every state reachable from reset. -/

namespace Sys2Proof.Proofs

open Sys2Proof Sys2Proof.Machine Sys2Proof.Laws

/-! ### The words of the writing commands -/

/-- A word that decodes to a command is that command's encoding: its fields are the operands, or the zeros R66 asks. -/
theorem encode_of_decode {c : Word} {i : Instr} (h : decode c = .ok i) : encode i = c := by
  refine Eq.trans ?_ (commandWord_fields c)
  unfold decode at h
  split_ifs at h <;> cases h <;> simp_all [encode]

theorem encode_start (vid : VidField) : encode (.start vid) = 0x2000#16 + vid.setWidth 16 <<< 8 := by
  have := vid.isLt
  apply BitVec.eq_of_toNat_eq
  simp only [encode, commandWord, toNat_append_eq_add, BitVec.toNat_add, BitVec.toNat_shiftLeft,
    BitVec.toNat_setWidth, BitVec.toNat_ofNat, Nat.shiftLeft_eq]
  omega

theorem encode_byte (b : Byte) : encode (.byte b) = 0x3000#16 + b.setWidth 16 := by
  have := b.isLt
  apply BitVec.eq_of_toNat_eq
  simp only [encode, commandWord, toNat_append_eq_add, BitVec.toNat_add, BitVec.toNat_setWidth, BitVec.toNat_ofNat]
  omega

theorem variantIdOf_toNat {vid : VidField} (h : vid.toNat < 8) : (variantIdOf vid).toNat = vid.toNat := by
  rw [variantIdOf_eq, BitVec.toNat_ofNat, Nat.mod_eq_of_lt h]

/-! ### What one edge writes -/

/-- Everything an edge can do to R20's tuple: nothing, a reset, or the effect of one of the four commands that write
it, accepted at this edge. Which response a command gets is `exec_next`'s to say. -/
inductive EdgeEffect (s t : State) : Prop
  | keep (hsame : SameEngine s t)
  | reset (hreset : s.Resets) (ht : t = s.nextEdge.resetEvent)
  | init (hacc : s.Accepts 0x1000#16) (r : Response)
      (ht : t = ({ s.nextEdge with
        tbl := Memory.writeAll (initCells s.cfg) s.tbl, ready := true } : State).answerInit r)
  | start (vid : VidField) (hacc : s.Accepts (0x2000#16 + vid.setWidth 16 <<< 8)) (hvid : vid.toNat < 8) (r : Response)
      (ht : t = ({ s.nextEdge with
        cur := variantIdOf vid, acc := seed (VAR (variantIdOf vid)), active := true } : State).answer r)
  | byte (b : Byte) (hacc : s.Accepts (0x3000#16 + b.setWidth 16)) (r : Response)
      (ht : t = ({ s.nextEdge with
        acc := update (VAR s.cur).refin (tblEntry s s.cur) s.acc b } : State).answer r)
  | final (hacc : s.Accepts 0x4000#16) (r : Response)
      (ht : t = ({ s.nextEdge with active := false } : State).answer r)

/-- An edge that only answers leaves R20's tuple (R160, R167). -/
theorem sameEngine_answer (s : State) (r : Response) : SameEngine s (s.nextEdge.answer r) :=
  ⟨rfl, rfl, rfl, rfl, rfl, fun _ _ => rfl, rfl, rfl⟩

/-- An edge that accepts a command has one of the effects: STATUS, TBLRD and every error write nothing (R167). -/
theorem edgeEffect_of_exec {i : Instr} {s t : State} (hacc : s.Accepts (encode i))
    (h : exec i s.nextEdge = .next t) : EdgeEffect s t := by
  rcases exec_next i s.nextEdge t h with ⟨_, rfl⟩ | ⟨-, rfl⟩ | ⟨rfl, ht⟩ | ⟨vid, rfl, -, hvid, -, ht⟩ |
    ⟨b, rfl, -, -, ht⟩ | ⟨rfl, -, -, ht⟩ | ⟨_, _, -, -, -, -, rfl⟩
  case inr.inr.inl => exact .init hacc _ ht
  case inr.inr.inr.inl => exact .start vid (encode_start vid ▸ hacc) hvid _ ht
  case inr.inr.inr.inr.inl => exact .byte b (encode_byte b ▸ hacc) _ ht
  case inr.inr.inr.inr.inr.inl => exact .final hacc _ ht
  all_goals exact .keep (sameEngine_answer s _)

/-- Every edge has one of the effects: only a reset and an accepted command write the tuple (R20, R62). -/
theorem step_effect {s t : State} (h : step s = .next t) : EdgeEffect s t := by
  rcases step_cases s with ⟨hreset, hs⟩ | ⟨-, -, -, hs⟩ | ⟨hrst, hflight, hvalid, hs⟩ | ⟨_, -, -, -, hs⟩ |
    ⟨_, -, -, -, hs⟩ | ⟨_, _, -, -, hs⟩ <;> rw [hs] at h
  case inl => cases h; exact .reset hreset rfl
  case inr.inr.inl =>
    rcases accept_cases s.edge.cmd s.nextEdge with ⟨_, -, hc⟩ | ⟨i, hi, hc⟩ <;> rw [hc] at h
    · cases h; exact .keep (sameEngine_answer s _)
    · exact edgeEffect_of_exec ⟨hrst, hvalid, (encode_of_decode hi).symm, hflight⟩ h
  all_goals cases h; exact .keep ⟨rfl, rfl, rfl, rfl, rfl, fun _ _ => rfl, rfl, rfl⟩

/-- A flag that an edge leaves alone is neither set nor cleared by it. -/
theorem flag_kept {before after : Bool} {P Q : Prop} (h : after = before) :
    (before = false → after = true → P) ∧ (before = true → after = false → Q) := by
  subst h
  cases after <;> simp

/-- INIT's pass leaves the entries of a disabled variant as they read before (R84, R104). -/
theorem tblEntry_afterInit_disabled {s t : State} {v : VariantId} (i : Byte)
    (htbl : t.tbl = Memory.writeAll (initCells s.cfg) s.tbl) (hepoch : t.epoch = s.epoch)
    (hv : variantEnabled s.cfg v = false) : tblEntry t v i = tblEntry s v i := by
  simp only [tblEntry, htbl, hepoch, find_afterInit_disabled s.cfg s.tbl v i hv]

/-! ### The invariant, update by update -/

/-- With the flags cleared, no table written and nothing in flight, only the responses taken are left to ask about. -/
theorem inv_of_cleared {s : State} (hready : s.ready = false) (hactive : s.active = false) (htbl : s.tbl = [])
    (hflight : s.flight = none) (htaken : ∀ r ∈ s.taken, r.wf = true) : s.Inv where
  activeIsReady h := by simp [hactive] at h
  tablesBuilt h := by simp [hready] at h
  memoryWf := htbl ▸ List.Pairwise.nil
  onlyEnabledTables c hc := by simp [htbl] at hc
  flightWf f hf := by simp [hflight] at hf
  takenWf := htaken

section
variable {s : State} (hs : s.Inv)
include hs

theorem inv_nextEdge : s.nextEdge.Inv :=
  { hs with }

theorem inv_resetEvent : s.resetEvent.Inv :=
  inv_of_cleared rfl rfl rfl rfl hs.takenWf

theorem inv_answer {r : Response} (hr : r.wf = true) : (s.answer r).Inv :=
  { hs with flightWf := by rintro _ ⟨⟩; exact hr }

theorem inv_answerInit {r : Response} (hr : r.wf = true) : (s.answerInit r).Inv :=
  { hs with flightWf := by rintro _ ⟨⟩; exact hr }

theorem inv_countDown {r : Response} (n : Nat) (hr : r.wf = true) : (s.countDown r n).Inv :=
  { hs with flightWf := by rintro _ ⟨⟩; exact hr }

theorem inv_transfer {r : Response} (hr : r.wf = true) : (s.transfer r).Inv :=
  { hs with
    flightWf := by rintro _ ⟨⟩
    takenWf := by simpa [or_imp, forall_and, hr] using hs.takenWf }

/-- INIT's writes: (I-2) by what the pass leaves at an enabled variant's location, and no cell of another one (R104). -/
theorem inv_initTables :
    ({ s with tbl := Memory.writeAll (initCells s.cfg) s.tbl, ready := true } : State).Inv :=
  { hs with
    activeIsReady := fun h => ⟨rfl, (hs.activeIsReady h).2⟩
    tablesBuilt := fun _ v i hv => find_afterInit_enabled s.cfg s.tbl v i hv
    memoryWf := writeAll_wf _ (initCells_wf s.cfg) _ hs.memoryWf
    onlyEnabledTables := fun c hc => by
      rcases mem_writeAll _ _ c hc with hinit | hold
      · obtain ⟨v, i, hv, rfl⟩ := (mem_initCells s.cfg c).mp hinit
        exact ⟨v, i, rfl, hv⟩
      · exact hs.onlyEnabledTables c hold }

/-- START's writes: (I-1) is what its checks have just passed (R125). -/
theorem inv_beginCalculation {v : VariantId} (hready : s.ready = true) (hv : variantEnabled s.cfg v = true)
    (a : Word) : ({ s with cur := v, acc := a, active := true } : State).Inv :=
  { hs with activeIsReady := fun _ => ⟨hready, hv⟩ }

theorem inv_setAcc (a : Word) : ({ s with acc := a } : State).Inv :=
  { hs with }

theorem inv_endCalculation : ({ s with active := false } : State).Inv :=
  { hs with activeIsReady := nofun }

/-! ### The invariant, command by command and edge by edge -/

theorem exec_inv {i : Instr} {t : State} (h : exec i s = .next t) : t.Inv := by
  rcases exec_next i s t h with ⟨e, rfl⟩ | ⟨-, rfl⟩ | ⟨-, rfl⟩ | ⟨vid, -, hready, -, hv, rfl⟩ | ⟨b, -, -, -, rfl⟩ |
    ⟨-, -, -, rfl⟩ | ⟨_, _, -, -, -, -, rfl⟩
  · exact inv_answer hs (error_wf e)
  · exact inv_answer hs (ok_wf _)
  · exact inv_answerInit (inv_initTables hs) (ok_wf _)
  · exact inv_answer (inv_beginCalculation hs hready hv _) (ok_wf _)
  · exact inv_answer (inv_setAcc hs _) (ok_wf _)
  · exact inv_answer (inv_endCalculation hs) (ok_wf _)
  · exact inv_answer hs (ok_wf _)

theorem accept_inv {c : Word} {t : State} (h : accept c s = .next t) : t.Inv := by
  rcases accept_cases c s with ⟨_, -, hc⟩ | ⟨i, -, hc⟩ <;> rw [hc] at h
  · cases h; exact inv_answer hs (error_wf .illegalCommand)
  · exact exec_inv hs h

theorem step_inv {t : State} (h : step s = .next t) : t.Inv := by
  have hnext := inv_nextEdge hs
  rcases step_cases s with ⟨-, hstep⟩ | ⟨-, -, -, hstep⟩ | ⟨-, -, -, hstep⟩ | ⟨r, -, hf, -, hstep⟩ |
    ⟨_, -, -, -, hstep⟩ | ⟨r, n, -, hf, hstep⟩ <;> rw [hstep] at h
  case inr.inr.inl => exact accept_inv hnext h
  all_goals cases h
  · exact inv_resetEvent hnext
  · exact hnext
  · exact inv_transfer hnext (hs.flightWf _ hf)
  · exact hnext
  · exact inv_countDown hnext n (hs.flightWf _ hf)

/-- (I-2) as TblRead sees it: once `ready`, an enabled variant's entries read as BuildTable's (R26). -/
theorem tblEntry_of_inv (hready : s.ready = true) {v : VariantId} (hv : variantEnabled s.cfg v = true) (i : Byte) :
    tblEntry s v i = buildTable (VAR v).poly (VAR v).refin i := by
  rw [tblEntry, hs.tablesBuilt hready v i hv, Option.getD_some]

end

/-- What every edge keeps holds after a run of any length. -/
theorem run_keeps {P : State → Prop} (hstep : ∀ s t, P s → step s = .next t → P t) (n : Nat) {s t : State}
    (hs : P s) (h : Host.Core.run core n s = .next t) : P t := by
  induction n generalizing s with
  | zero => cases h; exact hs
  | succ n ih =>
    rw [core_run_succ] at h
    split at h
    · rename_i u hu
      exact ih (hstep s u hs hu) h
    · cases h
    · cases h

/-! ### The statements -/

/-- Settles O41: the reset state has its flags cleared, no table and no response. -/
theorem invariantHoldsAtReset : Obligations.InvariantHoldsAtReset :=
  have hreset (p : Params) : (State.resetWith p).Inv := inv_of_cleared rfl rfl rfl rfl nofun
  ⟨hreset, hreset _⟩

/-- Settles O42, by the cases of one edge and of the command it accepts. -/
theorem everyStepKeepsTheInvariant : Obligations.EveryStepKeepsTheInvariant := by
  intro s t hs h
  exact step_inv hs h

/-- Settles O43: the invariant holds at reset whatever is driven, every edge keeps it, and it gives R26's two. -/
theorem reachableStatesMeetI1AndI2 : Obligations.ReachableStatesMeetI1AndI2 := by
  intro p bus pace n s hrun
  have hreset : ({ State.resetWith p with bus := bus, pace := pace } : State).Inv :=
    inv_of_cleared rfl rfl rfl rfl nofun
  have hs : s.Inv := run_keeps everyStepKeepsTheInvariant n hreset hrun
  exact ⟨hs.activeIsReady, fun hready v i hv => tblEntry_of_inv hs hready hv i⟩

/-- Settles O20: of the effects of an edge only INIT's sets `ready` and only reset's clears it. -/
theorem onlyInitSetsReadyOnlyResetClearsIt : Obligations.OnlyInitSetsReadyOnlyResetClearsIt := by
  intro s t h
  cases step_effect h with
  | keep hsame => obtain ⟨hready, -⟩ := hsame; exact flag_kept hready
  | reset hreset ht => subst ht; exact ⟨nofun, fun _ _ => hreset⟩
  | init hacc r ht => subst ht; exact ⟨fun _ _ => hacc, nofun⟩
  | start _ _ _ _ ht | byte _ _ _ ht | final _ _ ht => subst ht; exact flag_kept rfl

/-- Settles O21: of the effects of an edge only START's sets `active`, only FINAL's and reset's clear it. -/
theorem onlyStartSetsActive : Obligations.OnlyStartSetsActive := by
  intro s t h
  cases step_effect h with
  | keep hsame => obtain ⟨-, hactive, -⟩ := hsame; exact flag_kept hactive
  | reset hreset ht => subst ht; exact ⟨nofun, fun _ _ => .inl hreset⟩
  | start vid hacc _ _ ht => subst ht; exact ⟨fun _ _ => ⟨vid, hacc⟩, nofun⟩
  | final hacc _ ht => subst ht; exact ⟨nofun, fun _ _ => .inr hacc⟩
  | init _ _ ht | byte _ _ _ ht => subst ht; exact flag_kept rfl

/-- Settles O22: of the effects of an edge only START's and reset's write `cur`, START's with its own operand. -/
theorem onlyStartAndResetWriteCur : Obligations.OnlyStartAndResetWriteCur := by
  intro s t h hne
  cases step_effect h with
  | keep hsame => obtain ⟨-, -, hcur, -⟩ := hsame; exact absurd hcur hne
  | reset hreset => exact .inl hreset
  | start vid hacc hvid _ ht => subst ht; exact .inr ⟨vid, hacc, variantIdOf_toNat hvid⟩
  | init _ _ ht | byte _ _ _ ht | final _ _ ht => subst ht; exact absurd rfl hne

/-- Settles O23: of the effects of an edge only START's, BYTE's and reset's write `acc`. -/
theorem onlyStartAndByteWriteAcc : Obligations.OnlyStartAndByteWriteAcc := by
  intro s t h hne
  cases step_effect h with
  | keep hsame => obtain ⟨-, -, -, hacc, -⟩ := hsame; exact absurd hacc hne
  | reset hreset => exact .inl hreset
  | start vid hacc => exact .inr (.inl ⟨vid, hacc⟩)
  | byte b hacc => exact .inr (.inr ⟨b, hacc⟩)
  | init _ _ ht | final _ _ ht => subst ht; exact absurd rfl hne

/-- Settles O24: of the effects of an edge only reset's and INIT's write the table memory, and INIT's leaves the
entries of disabled variants. -/
theorem onlyInitWritesTables : Obligations.OnlyInitWritesTables := by
  intro s t v i h hne
  cases step_effect h with
  | keep hsame => obtain ⟨-, -, -, -, -, htables, -⟩ := hsame; exact absurd (htables v i) hne
  | reset hreset => exact .inl hreset
  | init hacc _ ht =>
    subst ht
    refine .inr ⟨hacc, Bool.eq_true_of_not_eq_false fun hv => hne ?_⟩
    exact tblEntry_afterInit_disabled i rfl rfl hv
  | start _ _ _ _ ht | byte _ _ _ ht | final _ _ ht => subst ht; exact absurd rfl hne

/-- Settles O30: bits 0 and 1 by the concatenation, the wider fields as digits of the view's number. -/
theorem statusViewFields : Obligations.StatusViewFields := by
  refine ⟨fun s => ?_, fun p => statusView_of_cleared rfl rfl rfl⟩
  have hcur := s.cur.isLt
  have hactive := s.active.toNat_le
  have hready := s.ready.toNat_le
  refine ⟨?_, ?_, ?_, ?_, ?_⟩
  · simp only [statusView, BitVec.getLsbD_append]; simp
  · simp only [statusView, BitVec.getLsbD_append]; simp
  all_goals
    apply BitVec.eq_of_toNat_eq
    simp only [BitVec.extractLsb'_toNat, statusView_toNat, Nat.shiftRight_eq_div_pow, BitVec.toNat_ofNat]
    omega

end Sys2Proof.Proofs
end

section
/-! SUPPORT. The memory family (20_memory.md): the canonical form on every edge, INIT's one pass as the spec's loop of
single writes, and INIT run twice. -/

namespace Sys2Proof.Proofs

open Sys2Proof Sys2Proof.Machine Sys2Proof.Laws

/-! ### The spec's loop of single writes -/

/-- `TblWrite` of R11 on every cell of `cells`, one after another in their order: the loop of R104. -/
def writeEach (cells : List (Nat × Word)) (m : Memory) : Memory :=
  cells.foldl (fun m c => Memory.write c.1 c.2 m) m

theorem writeEach_cons (k : Nat) (e : Word) (cells : List (Nat × Word)) (m : Memory) :
    writeEach ((k, e) :: cells) m = writeEach cells (Memory.write k e m) := rfl

theorem writeEach_wf (cells : List (Nat × Word)) {m : Memory} (hm : Memory.wf m) : Memory.wf (writeEach cells m) := by
  induction cells generalizing m with
  | nil => exact hm
  | cons c cells ih => exact ih (write_wf m c.1 c.2 hm)

/-- A read after the loop sees its cells, then the memory before: no later cell overwrites an earlier one, as the
locations rise. -/
theorem find_writeEach {cells : List (Nat × Word)} (hcells : Memory.wf cells) (m : Memory) (j : Nat) :
    (writeEach cells m).find j = (Memory.find cells j).or (m.find j) := by
  induction cells generalizing m with
  | nil => rfl
  | cons c cells ih =>
    obtain ⟨k, e⟩ := c
    obtain ⟨hlt, hrest⟩ := List.pairwise_cons.mp hcells
    rw [writeEach_cons, ih hrest, find_write, Memory.find]
    by_cases hj : k = j
    · subst hj
      have hlater : Memory.find cells k = none := find_of_lt cells k k hlt (Nat.le_refl k)
      simp [hlater]
    · simp [hj]

/-- On canonical memories the one pass is the loop: both results are canonical and read alike (log entry 11). -/
theorem writeAll_eq_writeEach {cells : List (Nat × Word)} (hcells : Memory.wf cells) {m : Memory} (hm : Memory.wf m) :
    Memory.writeAll cells m = writeEach cells m := by
  refine wf_ext _ _ (writeAll_wf cells hcells m hm) (writeEach_wf cells hm) fun j => ?_
  rw [find_writeAll cells hcells, find_writeEach hcells]

/-- Writing the same cells again changes no read, whatever the memory held. -/
theorem find_writeAll_writeAll {cells : List (Nat × Word)} (hcells : Memory.wf cells) (m : Memory) (j : Nat) :
    (Memory.writeAll cells (Memory.writeAll cells m)).find j = (Memory.writeAll cells m).find j := by
  simp only [find_writeAll cells hcells, ← Option.or_assoc, Option.or_self]

/-! ### What INIT leaves -/

/-- INIT's next state: the pass over the tables, `ready`, and the response (R104). -/
theorem next_of_init {s t : State} (h : exec .init s = .next t) :
    t = ({ s with tbl := Memory.writeAll (initCells s.cfg) s.tbl, ready := true } : State).answerInit
      (Response.ok 0x0000#16) :=
  (Host.Outcome.next.inj h).symm

/-! ### The statements -/

/-- Settles O44: of the effects of an edge reset's empties the table memory, INIT's is one pass over it, and no other
touches it. -/
theorem tableMemoryStaysCanonical : Obligations.TableMemoryStaysCanonical := by
  intro s t hs h
  cases step_effect h with
  | keep hsame => obtain ⟨-, -, -, -, htbl, -⟩ := hsame; exact htbl ▸ hs
  | reset _ ht => subst ht; exact List.Pairwise.nil
  | init _ _ ht => subst ht; exact writeAll_wf _ (initCells_wf s.cfg) _ hs
  | start _ _ _ _ ht | byte _ _ _ ht | final _ _ ht => subst ht; exact hs

/-- Settles O46: INIT's cells rise strictly, and on such cells the one pass is the loop. -/
theorem initIsTheLoopOfSingleWrites : Obligations.InitIsTheLoopOfSingleWrites := by
  intro p m hm
  exact writeAll_eq_writeEach (initCells_wf p) hm

/-- Settles O47: both runs write the same cells, as the configuration is the same, and the second pass changes no
read. -/
theorem initIsIdempotent : Obligations.InitIsIdempotent := by
  intro s t u ht hu
  obtain rfl := next_of_init ht
  obtain rfl := next_of_init hu
  refine ⟨rfl, fun v i => ?_, rfl, rfl, rfl⟩
  simp only [tblEntry, answerInit_tbl, answerInit_cfg, answerInit_epoch,
    find_writeAll_writeAll (initCells_wf s.cfg)]

end Sys2Proof.Proofs
end

section
/-! SUPPORT. The encoding family (30_encoding.md): the decoder and encoder as inverses, the opcode map's rows, what each
kind of clock edge does, and the handshake as one transaction. -/

namespace Sys2Proof.Proofs

open Sys2Proof Sys2Proof.Machine Sys2Proof.Laws

/-! ### Decoder and encoder are inverses -/

/-- The fields of an encoding are the operands, or the zeros its row of `decode` asks for. -/
theorem decode_encode (i : Instr) : decode (encode i) = .ok i := by
  cases i <;> simp [encode, decode]

theorem decode_eq_ok_iff {c : Word} {i : Instr} : decode c = .ok i ↔ c = encode i :=
  ⟨fun h => (encode_of_decode h).symm, fun h => h ▸ decode_encode i⟩

/-! ### The fields of a word -/

theorem eq_commandWord_iff {c : Word} {op : BitVec 4} {vid : VidField} {imm : Byte} :
    c = commandWord op vid imm ↔ opField c = op ∧ vidField c = vid ∧ immField c = imm := by
  constructor
  · rintro rfl; simp
  · rintro ⟨rfl, rfl, rfl⟩; exact (commandWord_fields c).symm

/-- A mask acts on each field by itself. -/
theorem and_commandWord_eq_iff {c : Word} {mop op : BitVec 4} {mvid vid : VidField} {mimm imm : Byte} :
    c &&& commandWord mop mvid mimm = commandWord op vid imm ↔
      opField c &&& mop = op ∧ vidField c &&& mvid = vid ∧ immField c &&& mimm = imm := by
  have hop (m : Word) : opField (c &&& m) = opField c &&& opField m := BitVec.extractLsb'_and
  have hvid (m : Word) : vidField (c &&& m) = vidField c &&& vidField m := BitVec.extractLsb'_and
  have himm (m : Word) : immField (c &&& m) = immField c &&& immField m := BitVec.extractLsb'_and
  simp [eq_commandWord_iff, hop, hvid, himm]

theorem opField_toNat (c : Word) : (opField c).toNat = c.toNat / 4096 := by
  have := c.isLt
  simp only [opField, BitVec.extractLsb'_toNat, Nat.shiftRight_eq_div_pow]
  omega

theorem vidField_toNat (c : Word) : (vidField c).toNat = c.toNat / 256 % 16 := by
  simp only [vidField, BitVec.extractLsb'_toNat, Nat.shiftRight_eq_div_pow]

theorem immField_toNat (c : Word) : (immField c).toNat = c.toNat % 256 := by
  simp only [immField, BitVec.extractLsb'_toNat, Nat.shiftRight_eq_div_pow]
  omega

/-! ### The rows of the opcode map (R65) -/

/-- A row whose mask is the whole word: its command has no operand. -/
theorem decode_eq_ok_iff_full_mask {c : Word} {i : Instr} : decode c = .ok i ↔ c &&& 0xFFFF#16 = encode i := by
  rw [show c &&& 0xFFFF#16 = c from BitVec.and_allOnes, decode_eq_ok_iff]

theorem decode_start_iff_mask {c : Word} :
    (∃ vid, decode c = .ok (.start vid)) ↔ c &&& 0xF0FF#16 = 0x2000#16 :=
  calc
    _ ↔ opField c = 2#4 ∧ immField c = 0#8 := by simp [decode_eq_ok_iff, encode, eq_commandWord_iff]
    _ ↔ c &&& commandWord (.allOnes 4) 0#4 (.allOnes 8) = commandWord 2#4 0#4 0#8 := by
      simp only [and_commandWord_eq_iff, BitVec.and_allOnes, BitVec.and_zero, true_and]

theorem decode_byte_iff_mask {c : Word} :
    (∃ b, decode c = .ok (.byte b)) ↔ c &&& 0xFF00#16 = 0x3000#16 :=
  calc
    _ ↔ opField c = 3#4 ∧ vidField c = 0#4 := by simp [decode_eq_ok_iff, encode, eq_commandWord_iff]
    _ ↔ c &&& commandWord (.allOnes 4) (.allOnes 4) 0#8 = commandWord 3#4 0#4 0#8 := by
      simp only [and_commandWord_eq_iff, BitVec.and_allOnes, BitVec.and_zero, and_true]

theorem decode_tblrd_iff_mask {c : Word} :
    (∃ vid i, decode c = .ok (.tblrd vid i)) ↔ c &&& 0xF000#16 = 0x5000#16 :=
  calc
    _ ↔ opField c = 5#4 := by simp [decode_eq_ok_iff, encode, eq_commandWord_iff]
    _ ↔ c &&& commandWord (.allOnes 4) 0#4 0#8 = commandWord 5#4 0#4 0#8 := by
      simp only [and_commandWord_eq_iff, BitVec.and_allOnes, BitVec.and_zero, and_true]

/-- A word is ILLEGAL when it decodes to none of the six commands. -/
theorem decode_error_iff {c : Word} :
    (∃ r, decode c = .error r) ↔
      decode c ≠ .ok .status ∧ decode c ≠ .ok .init ∧ (¬ ∃ vid, decode c = .ok (.start vid)) ∧
      (¬ ∃ b, decode c = .ok (.byte b)) ∧ decode c ≠ .ok .final ∧ ¬ ∃ vid i, decode c = .ok (.tblrd vid i) := by
  cases decode c with
  | error r => simp
  | ok i => cases i <;> simp

/-! ### Assembling one line -/

theorem assemble_of_wellFormed {l : AsmLine} (h : l.wellFormed = true) :
    assemble l = some ((AsmLine.expand l).map encode) := if_pos h

theorem assemble_of_not_wellFormed {l : AsmLine} (h : ¬ l.wellFormed = true) : assemble l = none := if_neg h

theorem encode_start_ofNat {v : Nat} (hv : v ≤ 15) :
    encode (.start (BitVec.ofNat 4 v)) = BitVec.ofNat 16 (0x2000 + v * 256) := by
  apply BitVec.eq_of_toNat_eq
  simp only [encode, commandWord, toNat_append_eq_add, BitVec.toNat_ofNat]
  omega

theorem encode_byte_ofNat {b : Nat} (hb : b ≤ 255) :
    encode (.byte (BitVec.ofNat 8 b)) = BitVec.ofNat 16 (0x3000 + b) := by
  apply BitVec.eq_of_toNat_eq
  simp only [encode, commandWord, toNat_append_eq_add, BitVec.toNat_ofNat]
  omega

theorem encode_tblrd_ofNat {v i : Nat} (hv : v ≤ 15) (hi : i ≤ 255) :
    encode (.tblrd (BitVec.ofNat 4 v) (BitVec.ofNat 8 i)) = BitVec.ofNat 16 (0x5000 + v * 256 + i) := by
  apply BitVec.eq_of_toNat_eq
  simp only [encode, commandWord, toNat_append_eq_add, BitVec.toNat_ofNat]
  omega

/-- CALC stands for START, a BYTE for each byte, and FINAL (R74). -/
theorem assemble_calc {v : Nat} {data : List Nat} (hv : v ≤ 15) (hdata : ∀ b ∈ data, b ≤ 255) :
    assemble (.calc v data) =
      some (BitVec.ofNat 16 (0x2000 + v * 256) :: data.map (fun b => BitVec.ofNat 16 (0x3000 + b)) ++
        [0x4000#16]) := by
  have hbytes : (data.map fun b => Instr.byte (BitVec.ofNat 8 b)).map encode =
      data.map fun b => BitVec.ofNat 16 (0x3000 + b) := by
    rw [List.map_map]
    exact List.map_congr_left fun b hb => encode_byte_ofNat (hdata b hb)
  rw [assemble_of_wellFormed (by simpa [AsmLine.wellFormed, hv] using hdata), AsmLine.expand, List.map_append,
    List.map_cons, hbytes, encode_start_ofNat hv]
  rfl

/-! ### Accepting one word -/

theorem accept_of_decode_ok {c : Word} {i : Instr} (s : State) (h : decode c = .ok i) : accept c s = exec i s := by
  simp only [accept, h]

theorem accept_of_decode_error {c : Word} {r : Illegal} (s : State) (h : decode c = .error r) :
    accept c s = raise .illegalCommand s := by
  simp only [accept, h]

theorem response_form_of_wf {r : Response} (h : r.wf = true) :
    (r.err = false → r.code = 0#3) ∧
      (r.err = true → 1 ≤ r.code.toNat ∧ r.code.toNat ≤ 4 ∧ r.data = 0x0000#16) := by
  obtain ⟨err, code, data⟩ := r
  cases err <;> simpa [Response.wf, and_assoc] using h

/-- INIT, START and BYTE answer no data, whether they succeed or raise (R104, R125, R126). -/
theorem exec_answers_no_data {i : Instr} {s t : State} {f : InFlight} (h : exec i s = .next t)
    (hf : t.flight = some f) (hi : OpcodeOf.opcode i = 1#4 ∨ OpcodeOf.opcode i = 2#4 ∨ OpcodeOf.opcode i = 3#4) :
    f.rsp.data = 0x0000#16 := by
  rcases exec_next i s t h with ⟨_, rfl⟩ | ⟨rfl, -⟩ | ⟨-, rfl⟩ | ⟨_, -, -, -, -, rfl⟩ | ⟨_, -, -, -, rfl⟩ |
    ⟨rfl, -, -, -⟩ | ⟨_, _, rfl, -, -, -, -⟩
  case inr.inl | inr.inr.inr.inr.inr.inl | inr.inr.inr.inr.inr.inr => simp [OpcodeOf.opcode] at hi
  all_goals cases hf; rfl

theorem opField_encode (i : Instr) : opField (encode i) = OpcodeOf.opcode i := by
  cases i <;> exact opField_commandWord _ _ _

/-- As `exec_answers_no_data`, for a word with the opcode of INIT, START or BYTE; an ILLEGAL one raises. -/
theorem accept_answers_no_data {c : Word} {s t : State} {f : InFlight} (h : accept c s = .next t)
    (hf : t.flight = some f) (hc : c.toNat / 4096 = 1 ∨ c.toNat / 4096 = 2 ∨ c.toNat / 4096 = 3) :
    f.rsp.data = 0x0000#16 := by
  rcases accept_cases c s with ⟨_, -, hs⟩ | ⟨i, hi, hs⟩ <;> rw [hs] at h
  · cases h; cases hf; rfl
  · refine exec_answers_no_data h hf ?_
    rw [← opField_encode, encode_of_decode hi]
    simpa [← BitVec.toNat_inj, opField_toNat] using hc

theorem exec_wait_of_ne_init {i : Instr} {s t : State} {f : InFlight} (hi : i ≠ .init) (h : exec i s = .next t)
    (hf : t.flight = some f) : f.wait = cmdLatency s - 1 := by
  rcases exec_next i s t h with ⟨_, rfl⟩ | ⟨-, rfl⟩ | ⟨hinit, -⟩ | ⟨_, -, -, -, -, rfl⟩ | ⟨_, -, -, -, rfl⟩ |
    ⟨-, -, -, rfl⟩ | ⟨_, _, -, -, -, -, rfl⟩
  case inr.inr.inl => exact absurd hinit hi
  all_goals cases hf; rfl

/-- The latency an accepted word gets (R198): INIT's own, else the realisation's choice. -/
theorem accept_wait {c : Word} {s t : State} {f : InFlight} (h : accept c s = .next t) (hf : t.flight = some f) :
    f.wait = (if c = 0x1000#16 then initLatency s.cfg else cmdLatency s) - 1 := by
  by_cases hc : c = 0x1000#16
  · subst hc
    cases h; cases hf; rfl
  · rw [if_neg hc]
    rcases accept_cases c s with ⟨_, -, hs⟩ | ⟨i, hi, hs⟩ <;> rw [hs] at h
    · cases h; cases hf; rfl
    · exact exec_wait_of_ne_init (fun hinit => hc (decode_eq_ok_iff.mp (hinit ▸ hi))) h hf

/-! ### Commands do not look at the host's drive -/

/-- What the host drives from here on, put in place in the next state. -/
def withBus (bus : List HostEdge) : Outcome → Outcome
  | .next t => .next { t with bus := bus }
  | o => o

theorem withVariant_setBus {vid : VidField} {s : State} {bus : List HostEdge} {run run' : Variant → Outcome}
    (hrun : ∀ V, run' V = withBus bus (run V)) :
    withVariant vid { s with bus := bus } run' = withBus bus (withVariant vid s run) := by
  unfold withVariant
  cases lookup s.cfg vid with
  | error e => rfl
  | ok V => simp only [apply_ite (withBus bus), hrun]; rfl

theorem inCalculation_setBus {s : State} {bus : List HostEdge} {run run' : Outcome} (hrun : run' = withBus bus run) :
    inCalculation { s with bus := bus } run' = withBus bus (inCalculation s run) := by
  simp only [inCalculation, apply_ite (withBus bus), hrun]
  rfl

theorem exec_setBus (i : Instr) (s : State) (bus : List HostEdge) :
    exec i { s with bus := bus } = withBus bus (exec i s) := by
  cases i with
  | status | init => rfl
  | start _ | tblrd _ _ => exact withVariant_setBus fun _ => rfl
  | byte _ | final => exact inCalculation_setBus rfl

theorem accept_setBus {c : Word} {s t : State} (bus : List HostEdge) (h : accept c s = .next t) :
    accept c { s with bus := bus } = .next { t with bus := bus } := by
  unfold accept at h ⊢
  cases hc : decode c with
  | error r => rw [hc] at h; cases h; rfl
  | ok i => rw [hc] at h; simp only [exec_setBus, h, withBus]

/-! ### One clock edge (R61) -/

section
variable {s : State} {e : HostEdge} {rest : List HostEdge} (hbus : s.bus = e :: rest) (hrst : e.rstN = true)
include hbus

theorem edge_of_bus : s.edge = e := by
  simp [State.edge, hbus]

theorem nextEdge_of_bus : s.nextEdge = { s with bus := rest } := by
  simp [State.nextEdge, hbus]

include hrst

theorem step_accept (hflight : s.flight = none) (hvalid : e.cmdValid = true) :
    step s = accept e.cmd { s with bus := rest } := by
  simp [step, clockEdge, edge_of_bus hbus, nextEdge_of_bus hbus, hrst, hflight, idleEdge, hvalid]

theorem step_idle (hflight : s.flight = none) (hvalid : e.cmdValid = false) :
    step s = .next { s with bus := rest } := by
  simp [step, clockEdge, edge_of_bus hbus, nextEdge_of_bus hbus, hrst, hflight, idleEdge, hvalid]

theorem step_countDown {r : Response} {n : Nat} (hflight : s.flight = some { rsp := r, wait := n + 1 }) :
    step s = .next { s with bus := rest, flight := some { rsp := r, wait := n } } := by
  simp [step, clockEdge, edge_of_bus hbus, nextEdge_of_bus hbus, hrst, hflight, busyEdge, State.countDown]

theorem step_hold {r : Response} (hflight : s.flight = some { rsp := r, wait := 0 }) (hready : e.rspReady = false) :
    step s = .next { s with bus := rest } := by
  simp [step, clockEdge, edge_of_bus hbus, nextEdge_of_bus hbus, hrst, hflight, busyEdge, hready]

theorem step_transfer {r : Response} (hflight : s.flight = some { rsp := r, wait := 0 }) (hready : e.rspReady = true) :
    step s = .next { s with bus := rest, flight := none, taken := s.taken ++ [r] } := by
  simp [step, clockEdge, edge_of_bus hbus, nextEdge_of_bus hbus, hrst, hflight, busyEdge, hready, State.transfer]

end

/-- The edge after `withFetchWord` accepts the placed word. -/
theorem step_withFetchWord (s : State) (nbits w : Nat) :
    step (s.withFetchWord nbits w) = accept (tableWord nbits w) { s with flight := none } := by
  have hbus : (s.withFetchWord nbits w).bus =
      { rstN := true, cmdValid := true, cmd := tableWord nbits w, rspReady := false } :: s.bus := rfl
  rw [step_accept hbus rfl rfl rfl, State.withFetchWord]

theorem rspValid_iff {s : State} : s.rspValid = true ↔ ∃ r, s.flight = some { rsp := r, wait := 0 } := by
  unfold State.rspValid
  cases hf : s.flight with
  | none => simp
  | some f => obtain ⟨r, n⟩ := f; simp

/-! ### Runs of edges -/

theorem run_add {m n : Nat} {s t : State} (h : Host.Core.run core m s = .next t) :
    Host.Core.run core (m + n) s = Host.Core.run core n t := by
  induction m generalizing s with
  | zero => cases h; rw [Nat.zero_add]
  | succ m ih =>
    rw [Nat.succ_add, core_run_succ]
    rw [core_run_succ] at h
    cases hs : step s with
    | next u => rw [hs] at h; exact ih h
    | fault r => nomatch r
    | refused r => rw [hs] at h; cases h

theorem run_one (s : State) : Host.Core.run core 1 s = step s := by
  rw [core_run_succ]
  cases step s <;> rfl

/-- While `rst_n` = 1 each edge takes one off a latency, until the response is valid (R198). -/
theorem run_latency {s : State} {r : Response} {during rest : List HostEdge}
    (hflight : s.flight = some { rsp := r, wait := during.length }) (hbus : s.bus = during ++ rest)
    (hrst : ∀ e ∈ during, e.rstN = true) :
    Host.Core.run core during.length s = .next { s with bus := rest, flight := some { rsp := r, wait := 0 } } := by
  induction during generalizing s with
  | nil =>
    obtain ⟨⟩ := s
    cases hflight; cases hbus; rfl
  | cons e during ih =>
    obtain ⟨he, hes⟩ := List.forall_mem_cons.mp hrst
    rw [List.length_cons, core_run_succ, step_countDown hbus he hflight]
    exact ih rfl rfl hes

/-- A valid response is held for as long as the host does not take it (R61). -/
theorem run_stalled {s : State} {r : Response} {stalled rest : List HostEdge}
    (hflight : s.flight = some { rsp := r, wait := 0 }) (hbus : s.bus = stalled ++ rest)
    (hstall : ∀ e ∈ stalled, e.rstN = true ∧ e.rspReady = false) :
    Host.Core.run core stalled.length s = .next { s with bus := rest } := by
  induction stalled generalizing s with
  | nil => obtain rfl := hbus; rfl
  | cons e stalled ih =>
    obtain ⟨⟨hrst, hready⟩, hes⟩ := List.forall_mem_cons.mp hstall
    rw [List.length_cons, core_run_succ, step_hold hbus hrst hflight hready]
    exact ih hflight rfl hes

/-- A response in flight with its latency to come is transferred by the edge that ends the host's stall. -/
theorem run_to_transfer {s : State} {r : Response} {during stalled rest : List HostEdge} {last : HostEdge}
    (hflight : s.flight = some { rsp := r, wait := during.length }) (hbus : s.bus = during ++ (stalled ++ last :: rest))
    (hduring : ∀ e ∈ during, e.rstN = true) (hstalled : ∀ e ∈ stalled, e.rstN = true ∧ e.rspReady = false)
    (hlast : last.rstN = true) (hready : last.rspReady = true) :
    Host.Core.run core (during.length + (stalled.length + 1)) s =
      .next { s with bus := rest, flight := none, taken := s.taken ++ [r] } := by
  rw [run_add (run_latency hflight hbus hduring), run_add (run_stalled rfl rfl hstalled), run_one]
  exact step_transfer rfl hlast rfl hready

/-! ### One transaction -/

/-- What a transaction's answer says of the acceptance behind it (R62). -/
theorem accept_of_transact {c : Word} {s t : State} {r : Response} (h : transact c s = some (t, r)) :
    ∃ u f, accept c s = .next u ∧ u.flight = some f ∧ f.rsp = r ∧ t = { u with flight := none } ∧ u.taken = s.taken := by
  obtain ⟨u, hu⟩ := accept_total c s
  obtain ⟨r', ha, -⟩ := accept_answers hu
  obtain ⟨rfl, rfl⟩ := Prod.mk.inj (Option.some.inj ((transact_of_answers hu ha).symm.trans h))
  obtain ⟨hr, -, htaken, -⟩ := ha
  obtain ⟨f, hf, hfr⟩ := Option.map_eq_some_iff.mp hr
  exact ⟨u, f, hu, hf, hfr, rfl, htaken⟩

/-! ### The statements -/

/-- Settles O2, by the fields of the encoding. -/
theorem decodeOfEncodeIsTheCommand : Obligations.DecodeOfEncodeIsTheCommand := by
  intro i _
  exact decode_encode i

/-- Settles O18: one accepting edge, the latency's edges, the stalled ones and the transfer, chained. -/
theorem handshakeRefinesTheTransaction : Obligations.HandshakeRefinesTheTransaction := by
  intro s t c r e last during stalled rest hflight htr hbus hrst hvalid hcmd hlen hduring hstalled hlast hready
  obtain ⟨u, ⟨rsp, w⟩, hu, hf, rfl, rfl, htaken⟩ := accept_of_transact htr
  obtain rfl : w = during.length := (accept_wait hu hf).trans hlen.symm
  have haccept : step s = .next { u with bus := during ++ (stalled ++ last :: rest) } := by
    rw [step_accept hbus hrst hflight hvalid, hcmd, accept_setBus _ hu, List.append_assoc]
  have htransfer := run_to_transfer (s := { u with bus := during ++ (stalled ++ last :: rest) }) hf rfl hduring
    hstalled hlast hready
  rw [Nat.add_assoc, Nat.add_assoc, run_add ((run_one s).trans haccept), htransfer, htaken]

/-- Settles O3. -/
theorem encodeOfDecodeIsTheWord : Obligations.EncodeOfDecodeIsTheWord := by
  intro c i h
  exact encode_of_decode h

/-- Settles O4, row by row; ILLEGAL is what is left. -/
theorem decodeFollowsMatchAndMask : Obligations.DecodeFollowsMatchAndMask := by
  intro c
  have hstatus : decode c = .ok .status ↔ c &&& 0xFFFF#16 = 0x0000#16 := decode_eq_ok_iff_full_mask
  have hinit : decode c = .ok .init ↔ c &&& 0xFFFF#16 = 0x1000#16 := decode_eq_ok_iff_full_mask
  have hfinal : decode c = .ok .final ↔ c &&& 0xFFFF#16 = 0x4000#16 := decode_eq_ok_iff_full_mask
  refine ⟨hstatus, hinit, decode_start_iff_mask, decode_byte_iff_mask, hfinal, decode_tblrd_iff_mask, ?_⟩
  rw [decode_error_iff, hstatus.ne, hinit.ne, decode_start_iff_mask, decode_byte_iff_mask, hfinal.ne,
    decode_tblrd_iff_mask]

/-- Settles O5: a word that decodes is its command's encoding, whose fields are the operands. -/
theorem operandsAreTheWordsFields : Obligations.OperandsAreTheWordsFields := by
  intro c
  simp only [← vidField_toNat, ← immField_toNat, decode_eq_ok_iff]
  refine ⟨?_, ?_, ?_⟩
  · rintro vid rfl; simp [encode]
  · rintro b rfl; simp [encode]
  · rintro vid i rfl; simp [encode]

/-- Settles O17: every effect of an edge but the first is a reset or an acceptance. -/
theorem onlyCommandsAndResetTouchTheEngine : Obligations.OnlyCommandsAndResetTouchTheEngine := by
  intro s t h hreset haccept
  cases step_effect h with
  | keep hsame => exact hsame
  | reset hr => exact absurd hr hreset
  | init hacc | start _ hacc | byte _ hacc | final hacc => exact absurd hacc (haccept _)

/-- Settles O26: every answer has R70's form, and three of the commands answer no data. -/
theorem responsesHaveTheirForm : Obligations.ResponsesHaveTheirForm := by
  intro c s t f h hf
  obtain ⟨r, ⟨hr, -⟩, hwf⟩ := accept_answers h
  obtain rfl : f.rsp = r := by simpa [hf] using hr
  obtain ⟨hok, herr⟩ := response_form_of_wf hwf
  exact ⟨hok, herr, accept_answers_no_data h hf⟩

/-- Settles O29: acceptance is total, and its next state is an answer. -/
theorem everyWordIsAnswered : Obligations.EveryWordIsAnswered := by
  intro c s
  obtain ⟨t, ht⟩ := accept_total c s
  obtain ⟨r, ha, hr⟩ := accept_answers ht
  exact ⟨t, r, ht, ha, hr⟩

/-- Settles O1: the seven command words are encodings; the five others are evaluated. -/
theorem writtenOutWordsDecode : Obligations.WrittenOutWordsDecode :=
  ⟨decode_encode .status, decode_encode .init, decode_encode (.start 7#4), decode_encode (.start 15#4),
    decode_encode (.byte 0x31#8), decode_encode .final, decode_encode (.tblrd 3#4 0x80#8), by decide⟩

/-- Settles O7: bit 19 by the concatenation, the wider fields as digits of the packed number. -/
theorem responsePacksErrCodeData : Obligations.ResponsePacksErrCodeData := by
  intro r
  have hcode := r.code.isLt
  have hdata := r.data.isLt
  refine ⟨?_, ?_, ?_⟩
  · simp only [Response.pack, BitVec.getLsbD_append]; simp
  all_goals
    apply BitVec.eq_of_toNat_eq
    simp only [Response.pack, BitVec.extractLsb'_toNat, toNat_append_eq_add, Nat.shiftRight_eq_div_pow]
    omega

/-- Settles O8: a line within its ranges assembles to its commands' encodings, any other is refused. -/
theorem assemblerEncodesEachForm : Obligations.AssemblerEncodesEachForm := by
  refine ⟨rfl, rfl, rfl, rfl, fun v hv => ?_, fun b hb => ?_, fun v i hv hi => ?_, fun v data => assemble_calc,
    fun v hv => ?_, fun b hb => ?_, fun v i h => ?_, fun v data h => ?_⟩
  · rw [← encode_start_ofNat hv]
    exact assemble_of_wellFormed (decide_eq_true hv)
  · rw [← encode_byte_ofNat hb]
    exact assemble_of_wellFormed (decide_eq_true hb)
  · rw [← encode_tblrd_ofNat hv hi]
    exact assemble_of_wellFormed (by simp [AsmLine.wellFormed, hv, hi])
  all_goals apply assemble_of_not_wellFormed
  · simpa [AsmLine.wellFormed] using hv
  · simpa [AsmLine.wellFormed] using hb
  · simp only [AsmLine.wellFormed, Bool.and_eq_true, decide_eq_true_eq]
    omega
  · rintro hwf
    obtain ⟨hv, hdata⟩ : v ≤ 15 ∧ ∀ b ∈ data, b ≤ 255 := by simpa [AsmLine.wellFormed] using hwf
    rcases h with h | ⟨b, hb, h⟩
    · omega
    · exact absurd (hdata b hb) (by omega)

/-- Settles O9. -/
theorem stepRunsTheDecodedCommand : Obligations.StepRunsTheDecodedCommand := by
  intro s c i rspReady rest hflight hbus hdecode
  rw [step_accept hbus rfl hflight rfl]
  exact accept_of_decode_ok _ hdecode

/-- Settles O10: the next edge accepts the placed word, which the decoder reads as a command or refuses. -/
theorem placedWordRunsNext : Obligations.PlacedWordRunsNext := by
  intro s w
  rw [step_withFetchWord]
  unfold decodeTableWord
  cases hdecode : decode (tableWord 16 w) with
  | ok i =>
    refine ⟨?_, nofun⟩
    rintro _ ⟨⟩
    exact accept_of_decode_ok _ hdecode
  | error r =>
    refine ⟨nofun, fun _ => ⟨_, accept_of_decode_error _ hdecode, rfl, ?_⟩⟩
    exact ⟨rfl, rfl, rfl, rfl, rfl, fun _ _ => rfl, rfl, rfl⟩

/-- Settles O11, one lemma for each kind of edge. -/
theorem handshakeEdges : Obligations.HandshakeEdges := by
  intro s e rest hbus hrst
  exact ⟨step_idle hbus hrst, fun _ _ => step_countDown hbus hrst, fun _ => step_hold hbus hrst,
    fun _ => step_transfer hbus hrst⟩

/-- Settles O12. -/
theorem pinsFollowTheHandshake : Obligations.PinsFollowTheHandshake := by
  intro s
  refine ⟨by simp [State.pins], by simp [State.pins, rspValid_iff], fun r hrst hflight => ?_, fun hvalid => ?_⟩
  · have hvalid : s.rspValid = true := rspValid_iff.mpr ⟨r, hflight⟩
    simp [State.pins, hrst, hvalid, hflight]
  · exact if_neg (Bool.not_eq_true _ ▸ hvalid)

end Sys2Proof.Proofs
end

section
/-! SUPPORT. The variant registry family (40_variant_registry.md): the records, Lookup's two outcomes, and STATUS, which
with TBLRD reads the engine and writes nothing of it. -/

namespace Sys2Proof.Proofs

open Sys2Proof Sys2Proof.Machine Sys2Proof.Laws

/-! ### Lookup (R82) -/

/-- Lookup refuses by the `ENABLED` bit of the whole operand: the truncated id differs from it only at 8 and above. -/
theorem lookup_refuses_iff (p : Params) (vid : VidField) :
    8 ≤ vid.toNat ∨ variantEnabled p (variantIdOf vid) = false ↔
      8 ≤ vid.toNat ∨ p.enabled.getLsbD vid.toNat = false :=
  or_congr_right' fun hlt => by rw [variantEnabled_idOf p vid (Nat.not_le.mp hlt)]

theorem lookup_of_refused {p : Params} {vid : VidField} (h : 8 ≤ vid.toNat ∨ p.enabled.getLsbD vid.toNat = false) :
    lookup p vid = .error .unknownVariant :=
  if_pos ((lookup_refuses_iff p vid).mpr h)

theorem lookup_of_enabled {p : Params} {vid : VidField} (hvid : vid.toNat < 8)
    (hen : p.enabled.getLsbD vid.toNat = true) : lookup p vid = .ok (VAR (BitVec.ofNat 3 vid.toNat)) := by
  have hpass : ¬ (8 ≤ vid.toNat ∨ p.enabled.getLsbD vid.toNat = false) := by simp [hvid, hen]
  rw [lookup, if_neg (mt (lookup_refuses_iff p vid).mp hpass), variantIdOf_eq]

/-! ### The commands that only read -/

theorem next_of_status {s t : State} (h : exec .status s = .next t) : t = s.answer (Response.ok (statusView s)) :=
  (Host.Outcome.next.inj h).symm

/-- TBLRD's two errors and its success differ in the response alone (R105, R167). -/
theorem next_of_tblrd {vid : VidField} {i : Byte} {s t : State} (h : exec (.tblrd vid i) s = .next t) :
    ∃ r, t = s.answer r := by
  rcases withVariant_cases vid s fun _ => respond (tblEntry s (variantIdOf vid) i) s with
    ⟨hrun, -⟩ | ⟨hrun, -⟩ | ⟨hrun, -⟩
  all_goals exact ⟨_, Host.Outcome.next.inj (h.symm.trans hrun)⟩

/-- A command whose whole effect is its answer leaves the engine, the host's drive and the responses taken. -/
theorem answer_frame (s : State) (r : Response) :
    SameEngine s (s.answer r) ∧ (s.answer r).bus = s.bus ∧ (s.answer r).taken = s.taken :=
  ⟨⟨rfl, rfl, rfl, rfl, rfl, fun _ _ => rfl, rfl, rfl⟩, rfl, rfl⟩

/-! ### The statements -/

/-- Settles O38: both commands only answer, TBLRD whether it succeeds or raises. -/
theorem readingCommandsFrame : Obligations.ReadingCommandsFrame := by
  refine fun s t => ⟨fun h => ?_, fun vid i h => ?_⟩
  · obtain rfl := next_of_status h
    exact answer_frame s _
  · obtain ⟨r, rfl⟩ := next_of_tblrd h
    exact answer_frame s r

/-- Settles O25. -/
theorem lookupRefusesUnknownAndDisabled : Obligations.LookupRefusesUnknownAndDisabled :=
  fun _ _ => ⟨lookup_of_refused, lookup_of_enabled⟩

/-- Settles O31: the word is STATUS's encoding, and the number answered is that of the view's fields. -/
theorem statusAnswersTheView : Obligations.StatusAnswersTheView := by
  refine ⟨decode_encode .status, fun s => ?_⟩
  obtain ⟨hsame, -⟩ := answer_frame s (Response.ok (statusView s))
  exact ⟨_, statusView s, rfl, ⟨rfl, rfl, rfl, rfl, rfl⟩, statusView_toNat s, hsame⟩

/-- Settles O49: each record as `VAR` evaluates it. -/
theorem registryContents : Obligations.RegistryContents :=
  ⟨rfl, rfl, rfl, rfl, rfl, rfl, rfl, rfl⟩

end Sys2Proof.Proofs
end

section
/-! SUPPORT. The table builder family (41_table_builder.md): the laws of the generator, INIT's effect and frame, and
TBLRD's answers. -/

namespace Sys2Proof.Proofs

open Sys2Proof Sys2Proof.Machine Sys2Proof.Laws

/-! ### The generator as its two loops (R100 to R102) -/

theorem buildTable_reflected (p : Word) (i : Byte) :
    buildTable p true i = (stepRight (bitReverse16 p))^[8] (i.setWidth 16) := rfl

theorem buildTable_nonReflected (p : Word) (i : Byte) : buildTable p false i = (stepLeft p)^[8] (i ++ 0x00#8) := rfl

theorem append_zero_xor (a b : Byte) : (a ^^^ b) ++ 0x00#8 = (a ++ 0x00#8) ^^^ (b ++ 0x00#8) := by
  rw [BitVec.xor_append, BitVec.xor_self]

/-- Both loops iterate a linear step, from a start value that is linear in the index. -/
theorem buildTable_xor (p : Word) (refin : Bool) (a b : Byte) :
    buildTable p refin (a ^^^ b) = buildTable p refin a ^^^ buildTable p refin b := by
  cases refin with
  | true => simp only [buildTable_reflected, BitVec.setWidth_xor, iterate_xor _ (stepRight_xor _)]
  | false => simp only [buildTable_nonReflected, append_zero_xor, iterate_xor _ (stepLeft_xor p)]

theorem buildTable_zero (p : Word) (refin : Bool) : buildTable p refin 0x00#8 = 0x0000#16 := by
  have h := buildTable_xor p refin 0x00#8 0x00#8
  rwa [BitVec.xor_self, BitVec.xor_self] at h

/-- The one bit of index 1 is shifted to bit 15 in seven steps, and the eighth trades it for the polynomial. -/
theorem buildTable_one (p : Word) : buildTable p false 0x01#8 = p := by
  have hshift : (stepLeft p)^[7] (0x01#8 ++ 0x00#8) = 0x8000#16 := by simp [stepLeft]
  have hlast : stepLeft p 0x8000#16 = p := BitVec.zero_xor
  rw [buildTable_nonReflected, Function.iterate_succ_apply', hshift, hlast]

/-! ### The reflected loop is the other one under bit reversal -/

theorem bitReverse16_shiftLeft_one (x : Word) : bitReverse16 (x <<< 1) = bitReverse16 x >>> 1 := by
  apply BitVec.eq_of_getLsbD_eq
  intro k hk
  simp only [bitReverse16_getLsbD, BitVec.getLsbD_shiftLeft, BitVec.getLsbD_ushiftRight]
  by_cases h15 : k = 15
  · simp [h15]
  · have hpos : ¬ 15 - k < 1 := by omega
    have hin : 1 + k < 16 := by omega
    have hle : 15 - k < 16 := by omega
    have hbit : 15 - k - 1 = 15 - (1 + k) := by omega
    simp [hk, hpos, hin, hle, hbit]

theorem bitReverse16_stepLeft (p x : Word) :
    bitReverse16 (stepLeft p x) = stepRight (bitReverse16 p) (bitReverse16 x) := by
  have hbit : (bitReverse16 x).getLsbD 0 = x.getLsbD 15 := bitReverse16_getLsbD x 0
  unfold stepLeft stepRight
  rw [hbit]
  split
  · rw [bitReverse16_xor, bitReverse16_shiftLeft_one]
  · rw [bitReverse16_shiftLeft_one]

/-- The reflected loop starts from the reversal of what the other one starts from. -/
theorem bitReverse16_index (i : Byte) : bitReverse16 (bitReverse8 i ++ 0x00#8) = i.setWidth 16 := by
  apply BitVec.eq_of_getLsbD_eq
  intro k hk
  simp only [bitReverse16_getLsbD, BitVec.getLsbD_append, bitReverse8_getLsbD, BitVec.getLsbD_setWidth]
  by_cases h8 : k < 8
  · have hhigh : ¬ 15 - k < 8 := by omega
    have hin : 15 - k - 8 < 8 := by omega
    have hbit : 7 - (15 - k - 8) = k := by omega
    simp [hk, hhigh, hin, hbit]
  · have hlow : 15 - k < 8 := by omega
    have hout : i.getLsbD k = false := BitVec.getLsbD_of_ge i k (Nat.not_lt.mp h8)
    simp [hk, hlow, hout]

theorem buildTable_mirror (p : Word) (i : Byte) :
    buildTable p true i = bitReverse16 (buildTable p false (bitReverse8 i)) := by
  have hstep : Function.Semiconj bitReverse16 (stepLeft p) (stepRight (bitReverse16 p)) := bitReverse16_stepLeft p
  rw [buildTable_reflected, buildTable_nonReflected, (hstep.iterate_right 8).eq, bitReverse16_index]

/-! ### What INIT leaves at an enabled variant -/

/-- INIT's pass makes every entry of an enabled variant read as BuildTable's (R104). -/
theorem tblEntry_afterInit_enabled {s t : State} {v : VariantId} (i : Byte)
    (htbl : t.tbl = Memory.writeAll (initCells s.cfg) s.tbl) (hv : variantEnabled s.cfg v = true) :
    tblEntry t v i = buildTable (VAR v).poly (VAR v).refin i := by
  rw [tblEntry, htbl, find_afterInit_enabled s.cfg s.tbl v i hv, Option.getD_some, variantTable]

/-! ### The checks of a variant operand, in their order (R166) -/

section
variable {vid : VidField} {s : State} (run : Variant → Outcome)

theorem withVariant_of_refused (h : 8 ≤ vid.toNat ∨ s.cfg.enabled.getLsbD vid.toNat = false) :
    withVariant vid s run = raise .unknownVariant s := by
  rw [withVariant, lookup_of_refused h]

theorem withVariant_of_not_ready (hvid : vid.toNat < 8) (hen : s.cfg.enabled.getLsbD vid.toNat = true)
    (hready : s.ready = false) : withVariant vid s run = raise .notInitialised s := by
  simp [withVariant, lookup_of_enabled hvid hen, hready]

theorem withVariant_of_ready (hvid : vid.toNat < 8) (hen : s.cfg.enabled.getLsbD vid.toNat = true)
    (hready : s.ready = true) : withVariant vid s run = run (VAR (BitVec.ofNat 3 vid.toNat)) := by
  simp [withVariant, lookup_of_enabled hvid hen, hready]

end

/-! ### Commands whose whole effect is an answer -/

theorem encode_tblrd (vid : VidField) (i : Byte) :
    encode (.tblrd vid i) = 0x5000#16 + vid.setWidth 16 <<< 8 + i.setWidth 16 := by
  have := vid.isLt
  have := i.isLt
  apply BitVec.eq_of_toNat_eq
  simp only [encode, commandWord, toNat_append_eq_add, BitVec.toNat_add, BitVec.toNat_shiftLeft,
    BitVec.toNat_setWidth, BitVec.toNat_ofNat, Nat.shiftLeft_eq]
  omega

/-- A command that runs as one answer is answered so, and leaves the engine (R160, R167). -/
theorem answers_of_exec_eq {i : Instr} {s : State} {r : Response} (h : exec i s = .next (s.answer r)) :
    ∃ t, exec i s = .next t ∧ Answers s t r ∧ SameEngine s t := by
  obtain ⟨hsame, -⟩ := answer_frame s r
  exact ⟨_, h, ⟨rfl, rfl, rfl, rfl, rfl⟩, hsame⟩

/-! ### The statements -/

/-- Settles O53. -/
theorem tablesAreLinear : Obligations.TablesAreLinear :=
  buildTable_xor

/-- Settles O52. -/
theorem reflectedTableMirrorsTheOther : Obligations.ReflectedTableMirrorsTheOther :=
  buildTable_mirror

/-- Settles O51: entry 0 by linearity, entry 0x80 of the reflected table as the mirror of entry 1 of the other. -/
theorem tableEntriesThatNameThePolynomial : Obligations.TableEntriesThatNameThePolynomial := by
  intro p
  have hindex : bitReverse8 0x80#8 = 0x01#8 := by decide
  refine ⟨buildTable_zero p false, buildTable_zero p true, buildTable_one p, ?_⟩
  rw [buildTable_mirror, hindex, buildTable_one]

/-- Settles O32: the word is INIT's encoding, and its pass writes the enabled variants' locations only. -/
theorem initBuildsTheEnabledTables : Obligations.InitBuildsTheEnabledTables := by
  refine ⟨decode_encode .init, fun s => ⟨_, rfl, ⟨rfl, rfl, rfl, rfl, rfl⟩, rfl, fun v i hv => ?_, fun v i hv => ?_,
    rfl, rfl, rfl⟩⟩
  · exact tblEntry_afterInit_enabled i rfl hv
  · exact ⟨tblEntry_afterInit_disabled i rfl rfl hv, find_afterInit_disabled s.cfg s.tbl v i hv⟩

/-- Settles O39: INIT writes `ready` and the tables, and its pass leaves the disabled variants' entries. -/
theorem initFrame : Obligations.InitFrame := by
  intro s t h
  obtain rfl := next_of_init h
  exact ⟨rfl, rfl, rfl, rfl, rfl, rfl, rfl, rfl, fun _ i hv => tblEntry_afterInit_disabled i rfl rfl hv⟩

/-- Settles O37: TBLRD is one answer, whichever check it ends at; the entry it reads is the built one by (I-2). -/
theorem tblrdAnswersOneEntry : Obligations.TblrdAnswersOneEntry := by
  intro vid i s
  refine ⟨encode_tblrd vid i ▸ decode_encode _, fun hvid hen hready => ?_, fun hrefused => ?_,
    fun hvid hen hready => ?_⟩
  · have hrun : exec (.tblrd vid i) s = respond (tblEntry s (variantIdOf vid) i) s :=
      withVariant_of_ready _ hvid hen hready
    rw [variantIdOf_eq] at hrun
    obtain ⟨t, ht, hanswers, hsame⟩ := answers_of_exec_eq hrun
    refine ⟨t, ht, hanswers, hsame, fun hs => tblEntry_of_inv hs hready ?_ i⟩
    rw [← variantIdOf_eq, variantEnabled_idOf s.cfg vid hvid, hen]
  · exact answers_of_exec_eq (withVariant_of_refused _ hrefused)
  · exact answers_of_exec_eq (withVariant_of_not_ready _ hvid hen hready)

end Sys2Proof.Proofs
end

section
/-! SUPPORT. The calculator family (42_calculator.md): what START, BYTE and FINAL do and leave, a whole calculation as
transactions, and the table-driven calculation as the bit-serial reference. -/

namespace Sys2Proof.Proofs

open Sys2Proof Sys2Proof.Machine Sys2Proof.Laws

/-! ### The two bytes of a word -/

theorem shiftLeft_eight (x : Word) : x <<< 8 = x.setWidth 8 ++ 0x00#8 :=
  BitVec.shiftLeft_eq_concat_of_lt (by decide)

theorem ushiftRight_eight (x : Word) : x >>> 8 = ((x >>> 8).setWidth 8).setWidth 16 :=
  (BitVec.ushiftRight_eq_extractLsb'_of_lt (by decide)).trans (BitVec.setWidth_eq_append (by decide)).symm

theorem byte_shiftLeft_eight (b : Byte) : b.setWidth 16 <<< 8 = b ++ 0x00#8 := by
  rw [shiftLeft_eight, BitVec.setWidth_setWidth_of_le b (by decide), BitVec.setWidth_eq]

theorem byte_ushiftRight_eight (b : Byte) : (b ++ 0x00#8) >>> 8 = b.setWidth 16 := by
  rw [BitVec.ushiftRight_eq_extractLsb'_of_lt (by decide), BitVec.extractLsb'_append_eq_left]
  exact (BitVec.setWidth_eq_append (by decide)).symm

/-- A word is its two bytes, each in its own place. -/
theorem word_eq_xor_bytes (x : Word) :
    x = ((x >>> 8).setWidth 8 ++ 0x00#8) ^^^ (x.setWidth 8).setWidth 16 := by
  have hlow : (x.setWidth 8).setWidth 16 = 0x00#8 ++ x.setWidth 8 := BitVec.setWidth_eq_append (by decide)
  rw [hlow, BitVec.xor_append, BitVec.xor_zero, BitVec.zero_xor]
  exact (BitVec.extractLsb'_append_extractLsb' (w := 8) (len := 8) (x := x)).symm

/-- Bit `15 - (15 - k)` is bit `k` (R151). -/
theorem bitReverse16_bitReverse16 (x : Word) : bitReverse16 (bitReverse16 x) = x := by
  apply BitVec.eq_of_getLsbD_eq
  intro k hk
  have hin : 15 - k < 16 := by omega
  have hback : 15 - (15 - k) = k := by omega
  simp only [bitReverse16_getLsbD, hk, hin, hback, decide_true, Bool.true_and]

/-! ### Eight generator steps are one update

A step adds the polynomial only for a one that is shifted out, so the byte that stays in the register is only moved;
by linearity the other byte's part is a table entry. -/

theorem stepLeft_iterate_eq_shiftLeft (p : Word) {x : Word} {n : Nat} (h : ∀ k < n, x.getLsbD (15 - k) = false) :
    (stepLeft p)^[n] x = x <<< n := by
  induction n with
  | zero => simp
  | succ n ih =>
    have hout : (x <<< n).getLsbD 15 = false := by
      rw [BitVec.getLsbD_shiftLeft, h n (Nat.lt_succ_self n), Bool.and_false]
    rw [Function.iterate_succ_apply', ih fun k hk => h k (Nat.lt_succ_of_lt hk), stepLeft, hout, BitVec.shiftLeft_add]
    rfl

theorem stepRight_iterate_eq_ushiftRight (p : Word) {x : Word} {n : Nat} (h : ∀ k < n, x.getLsbD k = false) :
    (stepRight p)^[n] x = x >>> n := by
  induction n with
  | zero => simp
  | succ n ih =>
    have hout : (x >>> n).getLsbD 0 = false := by
      rw [BitVec.getLsbD_ushiftRight, Nat.add_zero, h n (Nat.lt_succ_self n)]
    rw [Function.iterate_succ_apply', ih fun k hk => h k (Nat.lt_succ_of_lt hk), stepRight, hout,
      BitVec.shiftRight_add]
    rfl

theorem stepLeft_iterate_byte (p : Word) (b : Byte) : (stepLeft p)^[8] (b.setWidth 16) = b ++ 0x00#8 := by
  have hhigh : ∀ k < 8, (b.setWidth 16).getLsbD (15 - k) = false := by
    intro k hk
    rw [BitVec.getLsbD_setWidth, BitVec.getLsbD_of_ge b _ (by omega), Bool.and_false]
  rw [stepLeft_iterate_eq_shiftLeft p hhigh, byte_shiftLeft_eight]

theorem stepRight_iterate_byte (p : Word) (b : Byte) : (stepRight p)^[8] (b ++ 0x00#8) = b.setWidth 16 := by
  have hlow : ∀ k < 8, (b ++ 0x00#8).getLsbD k = false := by
    intro k hk
    rw [BitVec.getLsbD_append, if_pos hk, BitVec.getLsbD_zero]
  rw [stepRight_iterate_eq_ushiftRight p hlow, byte_ushiftRight_eight]

/-- Update of R121 with its byte field as a shift. -/
theorem update_reflected (T : Byte → Word) (a : Word) (b : Byte) :
    update true T a b = (a >>> 8) ^^^ T (a.setWidth 8 ^^^ b) := rfl

/-- Update of R122 with its byte fields as shifts. -/
theorem update_nonReflected (T : Byte → Word) (a : Word) (b : Byte) :
    update false T a b = (a <<< 8) ^^^ T ((a >>> 8).setWidth 8 ^^^ b) := by
  rw [shiftLeft_eight]
  rfl

theorem stepLeft_iterate_eq_update (p a : Word) (b : Byte) :
    (stepLeft p)^[8] (a ^^^ (b ++ 0x00#8)) = update false (buildTable p false) a b := by
  have hsplit : a ^^^ (b ++ 0x00#8) = (a.setWidth 8).setWidth 16 ^^^ (((a >>> 8).setWidth 8 ^^^ b) ++ 0x00#8) := by
    rw [append_zero_xor, xor_left_comm, ← BitVec.xor_assoc, ← word_eq_xor_bytes]
  rw [hsplit, iterate_xor _ (stepLeft_xor p), stepLeft_iterate_byte, update_nonReflected, shiftLeft_eight,
    buildTable_nonReflected]

theorem stepRight_iterate_eq_update (p a : Word) (b : Byte) :
    (stepRight (bitReverse16 p))^[8] (a ^^^ b.setWidth 16) = update true (buildTable p true) a b := by
  have hsplit : a ^^^ b.setWidth 16 = ((a >>> 8).setWidth 8 ++ 0x00#8) ^^^ (a.setWidth 8 ^^^ b).setWidth 16 := by
    rw [BitVec.setWidth_xor, ← BitVec.xor_assoc, ← word_eq_xor_bytes]
  rw [hsplit, iterate_xor _ (stepRight_xor _), stepRight_iterate_byte, update_reflected, ← ushiftRight_eight,
    buildTable_reflected]

/-! ### The block's register and the reference's (R129) -/

/-- What the block's register holds while the reference's holds `c`: for a reflected variant its reversal. -/
def tableRegister (V : Variant) (c : Word) : Word := if V.refin then bitReverse16 c else c

theorem seed_eq_tableRegister (V : Variant) : seed V = tableRegister V V.init := rfl

theorem update_tableRegister (V : Variant) (c : Word) (b : Byte) :
    update V.refin (buildTable V.poly V.refin) (tableRegister V c) b = tableRegister V (refByte V c b) := by
  unfold tableRegister refByte
  cases V.refin with
  | false => exact (stepLeft_iterate_eq_update V.poly c b).symm
  | true =>
    have hstep : Function.Semiconj bitReverse16 (stepLeft V.poly) (stepRight (bitReverse16 V.poly)) :=
      bitReverse16_stepLeft V.poly
    simp only [if_true]
    rw [(hstep.iterate_right 8).eq, bitReverse16_xor, bitReverse16_index, stepRight_iterate_eq_update]

theorem finalize_tableRegister (V : Variant) (c : Word) :
    finalize V (tableRegister V c) = (if V.refout then bitReverse16 c else c) ^^^ V.xorout := by
  unfold finalize tableRegister
  cases V.refin with
  | false => simp
  | true => cases V.refout <;> simp [bitReverse16_bitReverse16]

/-! ### The checks of BYTE and FINAL, in their order (R166) -/

section
variable {s : State} (run : Outcome)

theorem inCalculation_of_not_ready (hready : s.ready = false) : inCalculation s run = raise .notInitialised s :=
  if_pos hready

theorem inCalculation_of_not_active (hready : s.ready = true) (hactive : s.active = false) :
    inCalculation s run = raise .noActiveCalculation s := by
  simp [inCalculation, hready, hactive]

theorem inCalculation_of_active (hready : s.ready = true) (hactive : s.active = true) : inCalculation s run = run := by
  simp [inCalculation, hready, hactive]

end

/-! ### START, BYTE and FINAL with their checks passed -/

section
variable {s : State} (hready : s.ready = true)
include hready

theorem exec_start_of_ready {vid : VidField} (hvid : vid.toNat < 8) (hen : s.cfg.enabled.getLsbD vid.toNat = true) :
    exec (.start vid) s = respond 0x0000#16
      { s with cur := variantIdOf vid, acc := seed (VAR (variantIdOf vid)), active := true } :=
  (withVariant_of_ready _ hvid hen hready).trans (by rw [variantIdOf_eq])

theorem exec_byte_of_active (hactive : s.active = true) (b : Byte) :
    exec (.byte b) s =
      respond 0x0000#16 { s with acc := update (VAR s.cur).refin (tblEntry s s.cur) s.acc b } :=
  inCalculation_of_active _ hready hactive

theorem exec_final_of_active (hactive : s.active = true) :
    exec .final s = respond (finalize (VAR s.cur) s.acc) { s with active := false } :=
  inCalculation_of_active _ hready hactive

end

/-! ### What they write, whether they succeed or raise -/

section
variable {s t : State}

theorem next_of_start {vid : VidField} (h : exec (.start vid) s = .next t) :
    ∃ v a on r, t = ({ s with cur := v, acc := a, active := on } : State).answer r := by
  rcases withVariant_cases vid s fun V =>
      respond 0x0000#16 { s with cur := variantIdOf vid, acc := seed V, active := true } with
    ⟨hrun, -⟩ | ⟨hrun, -⟩ | ⟨hrun, -⟩
  all_goals exact ⟨_, _, _, _, Host.Outcome.next.inj (h.symm.trans hrun)⟩

theorem next_of_byte {b : Byte} (h : exec (.byte b) s = .next t) :
    ∃ a r, t = ({ s with acc := a } : State).answer r := by
  rcases inCalculation_cases s
      (respond 0x0000#16 { s with acc := update (VAR s.cur).refin (tblEntry s s.cur) s.acc b }) with
    ⟨hrun, -⟩ | ⟨hrun, -⟩ | ⟨hrun, -⟩
  all_goals exact ⟨_, _, Host.Outcome.next.inj (h.symm.trans hrun)⟩

theorem next_of_final (h : exec .final s = .next t) : ∃ on r, t = ({ s with active := on } : State).answer r := by
  rcases inCalculation_cases s (respond (finalize (VAR s.cur) s.acc) { s with active := false }) with
    ⟨hrun, -⟩ | ⟨hrun, -⟩ | ⟨hrun, -⟩
  all_goals exact ⟨_, _, Host.Outcome.next.inj (h.symm.trans hrun)⟩

end

/-! ### A whole calculation as transactions -/

theorem transact_of_respond {i : Instr} {s u : State} {d : Word} (h : exec i s = respond d u) :
    transact (encode i) s = some ({ u.answer (Response.ok d) with flight := none }, Response.ok d) := by
  simp [transact, accept_of_decode_ok s (decode_encode i), h, respond]

theorem transactAll_cons {c : Word} {cs : List Word} {s t u : State} {r : Response} {rs : List Response}
    (hc : transact c s = some (t, r)) (hcs : transactAll cs t = some (u, rs)) :
    transactAll (c :: cs) s = some (u, r :: rs) := by
  simp [transactAll, hc, hcs]

/-- A calculation of variant `v` is in progress, its register at `a` and its table built (R22 to R26). -/
structure Calculating (s : State) (v : VariantId) (a : Word) : Prop where
  ready : s.ready = true
  active : s.active = true
  cur : s.cur = v
  acc : s.acc = a
  table : tblEntry s v = buildTable (VAR v).poly (VAR v).refin

theorem start_calculates {s : State} {vid : VidField} (hs : s.Inv) (hready : s.ready = true) (hvid : vid.toNat < 8)
    (hen : s.cfg.enabled.getLsbD vid.toNat = true) :
    ∃ t, transact (encode (.start vid)) s = some (t, Response.ok 0x0000#16) ∧
      Calculating t (variantIdOf vid) (seed (VAR (variantIdOf vid))) := by
  have henabled : variantEnabled s.cfg (variantIdOf vid) = true := by rw [variantEnabled_idOf s.cfg vid hvid, hen]
  exact ⟨_, transact_of_respond (exec_start_of_ready hready hvid hen), hready, rfl, rfl, rfl,
    funext (tblEntry_of_inv hs hready henabled)⟩

section
variable {s : State} {v : VariantId} {a : Word} (hs : Calculating s v a)
include hs

theorem byte_calculates (b : Byte) :
    ∃ t, transact (encode (.byte b)) s = some (t, Response.ok 0x0000#16) ∧
      Calculating t v (update (VAR v).refin (buildTable (VAR v).poly (VAR v).refin) a b) := by
  obtain ⟨hready, hactive, rfl, rfl, htable⟩ := hs
  rw [← htable]
  exact ⟨_, transact_of_respond (exec_byte_of_active hready hactive b), hready, hactive, rfl, rfl, htable⟩

theorem final_answers : ∃ t, transact (encode .final) s = some (t, Response.ok (finalize (VAR v) a)) := by
  obtain ⟨hready, hactive, rfl, rfl, -⟩ := hs
  exact ⟨_, transact_of_respond (exec_final_of_active hready hactive)⟩

theorem bytes_then_final_answer (data : List Byte) :
    ∃ t, transactAll (data.map (fun b => encode (.byte b)) ++ [encode .final]) s =
      some (t, List.replicate data.length (Response.ok 0x0000#16) ++ [Response.ok
        (finalize (VAR v) (data.foldl (update (VAR v).refin (buildTable (VAR v).poly (VAR v).refin)) a))]) := by
  induction data generalizing s a with
  | nil =>
    obtain ⟨t, ht⟩ := final_answers hs
    exact ⟨t, transactAll_cons ht rfl⟩
  | cons b data ih =>
    obtain ⟨t, ht, hcalc⟩ := byte_calculates hs b
    obtain ⟨u, hu⟩ := ih hcalc
    exact ⟨u, transactAll_cons ht hu⟩

end

/-- START, the message and FINAL, by the operand as START's word holds it. -/
theorem calculation_answers {s : State} {vid : VidField} (hs : s.Inv) (hready : s.ready = true)
    (hvid : vid.toNat < 8) (hen : s.cfg.enabled.getLsbD vid.toNat = true) (data : List Byte) :
    ∃ t, transactAll (encode (.start vid) :: data.map (fun b => encode (.byte b)) ++ [encode .final]) s =
      some (t, List.replicate (data.length + 1) (Response.ok 0x0000#16) ++
        [Response.ok (calculate (VAR (variantIdOf vid)) data)]) := by
  obtain ⟨t, ht, hcalc⟩ := start_calculates hs hready hvid hen
  obtain ⟨u, hu⟩ := bytes_then_final_answer hcalc data
  exact ⟨u, transactAll_cons ht hu⟩

/-! ### The registry's reflections (R132) -/

theorem registry_refout_eq_refin (v : VariantId) : (VAR v).refout = (VAR v).refin := by
  decide +revert

theorem bitReverse16_registry_init (v : VariantId) : bitReverse16 (VAR v).init = (VAR v).init := by
  decide +revert

theorem calculate_nil (V : Variant) : calculate V [] = finalize V (seed V) := rfl

/-! ### The statements -/

/-- Settles O56, by induction on the message: START begins a calculation, BYTE continues it and FINAL answers it. -/
theorem calculationAnswersCalculate : Obligations.CalculationAnswersCalculate := by
  intro s v data hs hready hv
  have hnum : (v.setWidth 4).toNat = v.toNat := BitVec.toNat_setWidth_of_le (by decide)
  have hid : variantIdOf (v.setWidth 4) = v := by
    rw [variantIdOf_eq, hnum, BitVec.ofNat_toNat, BitVec.setWidth_eq]
  obtain ⟨t, ht⟩ := calculation_answers (vid := v.setWidth 4) hs hready (hnum ▸ v.isLt) (hnum ▸ hv) data
  rw [hid] at ht
  exact ⟨t, ht⟩

/-- Settles O58: the block's register stands for the reference's at the seed, after every byte and at Finalize. -/
theorem calculateIsTheBitSerialReference : Obligations.CalculateIsTheBitSerialReference := by
  intro V data
  rw [calculate, seed_eq_tableRegister, List.foldl_hom (tableRegister V) (update_tableRegister V),
    finalize_tableRegister, refCalculate]

/-- Settles O33, by the checks of the variant operand in their order. -/
theorem startBeginsACalculation : Obligations.StartBeginsACalculation := by
  intro vid s
  refine ⟨encode_start vid ▸ decode_encode _, fun hvid hen hready => ?_, fun hrefused => ?_,
    fun hvid hen hready => ?_⟩
  · exact ⟨_, exec_start_of_ready hready hvid hen, ⟨rfl, rfl, rfl, rfl, rfl⟩, variantIdOf_eq vid, rfl, rfl, hready,
      rfl, fun _ _ => rfl⟩
  · exact answers_of_exec_eq (withVariant_of_refused _ hrefused)
  · exact answers_of_exec_eq (withVariant_of_not_ready _ hvid hen hready)

/-- Settles O34, by the checks of BYTE in their order; its Update is R121's or R122's by the variant's `refin`. -/
theorem byteFoldsOneByte : Obligations.ByteFoldsOneByte := by
  intro b s
  refine ⟨encode_byte b ▸ decode_encode _, fun hready hactive => ?_, fun hready => ?_, fun hready hactive => ?_⟩
  · refine ⟨_, exec_byte_of_active hready hactive b, ⟨rfl, rfl, rfl, rfl, rfl⟩, fun hrefin => ?_, fun hrefin => ?_,
      rfl, rfl, rfl, rfl, fun _ _ => rfl⟩
    · rw [answer_acc, hrefin, update_reflected]
    · rw [answer_acc, hrefin, update_nonReflected]
  · exact answers_of_exec_eq (inCalculation_of_not_ready _ hready)
  · exact answers_of_exec_eq (inCalculation_of_not_active _ hready hactive)

/-- Settles O36, by the checks of FINAL in their order. -/
theorem finalAnswersTheChecksum : Obligations.FinalAnswersTheChecksum := by
  refine ⟨decode_encode .final, fun s => ⟨fun hready hactive => ?_, fun hready => ?_, fun hready hactive => ?_⟩⟩
  · exact ⟨_, exec_final_of_active hready hactive, ⟨rfl, rfl, rfl, rfl, rfl⟩, rfl, rfl, rfl, rfl, rfl, fun _ _ => rfl⟩
  · exact answers_of_exec_eq (inCalculation_of_not_ready _ hready)
  · exact answers_of_exec_eq (inCalculation_of_not_active _ hready hactive)

/-- Settles O40: each command writes its own fields of the tuple and answers, whether it succeeds or raises. -/
theorem calculatorFrame : Obligations.CalculatorFrame := by
  refine fun s t => ⟨fun vid h => ?_, fun b h => ?_, fun h => ?_⟩
  · obtain ⟨v, a, on, r, rfl⟩ := next_of_start h
    exact ⟨rfl, rfl, fun _ _ => rfl, rfl, rfl, rfl, rfl⟩
  · obtain ⟨a, r, rfl⟩ := next_of_byte h
    exact ⟨⟨rfl, rfl, fun _ _ => rfl, rfl, rfl, rfl, rfl⟩, rfl, rfl⟩
  · obtain ⟨on, r, rfl⟩ := next_of_final h
    exact ⟨⟨rfl, rfl, fun _ _ => rfl, rfl, rfl, rfl, rfl⟩, rfl, rfl⟩

/-- Settles O57: both runs answer what `calculation_answers` says, which names neither state. -/
theorem calculationsArePure : Obligations.CalculationsArePure := by
  intro s s' t t' vid data rs rs' hs hs' hready hready' hvid hen hen' h h'
  obtain ⟨u, hu⟩ := calculation_answers hs hready hvid hen data
  obtain ⟨u', hu'⟩ := calculation_answers hs' hready' hvid hen' data
  obtain ⟨-, rfl⟩ := Prod.mk.inj (Option.some.inj (h.symm.trans hu))
  obtain ⟨-, rfl⟩ := Prod.mk.inj (Option.some.inj (h'.symm.trans hu'))
  rfl

/-- Settles O54: every `init` of the registry is its own reversal, and no record has `refin ≠ refout`. -/
theorem registrySeedsAndFinals : Obligations.RegistrySeedsAndFinals := by
  intro v a
  constructor
  · rw [seed, bitReverse16_registry_init, ite_self]
  · rw [finalize, if_neg (not_not_intro (registry_refout_eq_refin v))]

/-- Settles O55: for the registry the empty message's checksum is `init` exclusive-or `xorout`. -/
theorem emptyMessageChecksums : Obligations.EmptyMessageChecksums := by
  have hnil (v : VariantId) : calculate (VAR v) [] = (VAR v).init ^^^ (VAR v).xorout := by
    obtain ⟨hseed, hfinal⟩ := registrySeedsAndFinals v (VAR v).init
    rw [calculate_nil, hseed, hfinal]
  refine ⟨calculate_nil, ?_⟩
  simp only [hnil]
  decide

end Sys2Proof.Proofs
end

section
/-! SUPPORT. The bit reversals (43_bit_reversal.md): the 8-bit one is an involution, as `bitReverse16_bitReverse16`
says of the 16-bit one, and the words the 16-bit one fixes. -/

namespace Sys2Proof.Proofs

open Sys2Proof Sys2Proof.Machine Sys2Proof.Laws

/-- Bit `7 - (7 - k)` is bit `k` (R152). -/
theorem bitReverse8_bitReverse8 (x : Byte) : bitReverse8 (bitReverse8 x) = x := by
  apply BitVec.eq_of_getLsbD_eq
  intro k hk
  have hin : 7 - k < 8 := by omega
  have hback : 7 - (7 - k) = k := by omega
  simp only [bitReverse8_getLsbD, hk, hin, hback, decide_true, Bool.true_and]

theorem bitReverse16_getLsbD_of_lt (x : Word) {k : Nat} (hk : k < 16) :
    (bitReverse16 x).getLsbD k = x.getLsbD (15 - k) := by
  rw [bitReverse16_getLsbD, decide_eq_true hk, Bool.true_and]

/-- R151's fixed points, compared bit by bit. -/
theorem bitReverse16_eq_self_iff (x : Word) :
    bitReverse16 x = x ↔ ∀ k, k < 16 → x.getLsbD k = x.getLsbD (15 - k) := by
  constructor
  · intro hfix k hk
    rw [← bitReverse16_getLsbD_of_lt x hk, hfix]
  · intro hmirror
    apply BitVec.eq_of_getLsbD_eq
    intro k hk
    rw [bitReverse16_getLsbD_of_lt x hk, hmirror k hk]

/-- Settles O50. -/
theorem bitReversalsAreInvolutions : Obligations.BitReversalsAreInvolutions :=
  ⟨bitReverse16_bitReverse16, bitReverse8_bitReverse8, bitReverse16_eq_self_iff⟩

end Sys2Proof.Proofs
end

section
/-! SUPPORT. The exceptions family (60_exceptions.md): ILLEGAL words, the code each word is answered with, errors that
leave nothing behind, and the machine that no error stops. -/

namespace Sys2Proof.Proofs

open Sys2Proof Sys2Proof.Machine Sys2Proof.Laws

/-! ### No edge stops the machine -/

/-- Every edge gives a next state: an acceptance answers, any other edge only moves the handshake or resets. -/
theorem step_total (s : State) : ∃ t, step s = .next t := by
  rcases step_cases s with ⟨-, hs⟩ | ⟨-, -, -, hs⟩ | ⟨-, -, -, hs⟩ | ⟨_, -, -, -, hs⟩ | ⟨_, -, -, -, hs⟩ |
    ⟨_, _, -, -, hs⟩
  case inr.inr.inl => exact hs ▸ accept_total s.edge.cmd s.nextEdge
  all_goals exact ⟨_, hs⟩

/-! ### ILLEGAL words (R165) -/

theorem commandWord_toNat (op : BitVec 4) (vid : VidField) (imm : Byte) :
    (commandWord op vid imm).toNat = op.toNat * 4096 + vid.toNat * 256 + imm.toNat := by
  simp only [commandWord, toNat_append_eq_add]
  omega

/-- R165's two kinds of ILLEGAL word, by the digits of its number: an opcode of no command, or a non-zero bit in a field
that the opcode's command does not use. -/
def Reserved (c : Word) : Prop :=
  6 ≤ c.toNat / 4096 ∨
    ((c.toNat / 4096 = 0 ∨ c.toNat / 4096 = 1 ∨ c.toNat / 4096 = 4) ∧ c.toNat % 4096 ≠ 0) ∨
    (c.toNat / 4096 = 2 ∧ c.toNat % 256 ≠ 0) ∨
    (c.toNat / 4096 = 3 ∧ c.toNat / 256 % 16 ≠ 0)

theorem not_reserved_encode (i : Instr) : ¬ Reserved (encode i) := by
  cases i with
  | status | init | final => simp [Reserved, encode, commandWord_toNat]
  | start vid | byte b | tblrd vid b =>
    simp only [Reserved, encode, commandWord_toNat, BitVec.toNat_ofNat]
    omega

theorem decode_error_of_reserved {c : Word} (hc : Reserved c) : ∃ r, decode c = .error r := by
  cases hdecode : decode c with
  | error r => exact ⟨r, rfl⟩
  | ok i => exact absurd (encode_of_decode hdecode ▸ hc) (not_reserved_encode i)

/-! ### The code of an answer (R161, R166) -/

/-- The outcome is an answer whose code is `k`. -/
def AnswersCode (o : Outcome) (k : BitVec 3) : Prop := ∃ t, o = .next t ∧ ∃ f, t.flight = some f ∧ f.rsp.code = k

theorem raise_answersCode (e : ErrorKind) (s : State) : AnswersCode (raise e s) e.code :=
  ⟨_, rfl, _, rfl, rfl⟩

theorem respond_answersCode (d : Word) (s : State) : AnswersCode (respond d s) 0#3 :=
  ⟨_, rfl, _, rfl, rfl⟩

/-- `UnknownVariant` comes before `NotInitialised`; past both the command's own effect answers. -/
theorem withVariant_answersCode {vid : VidField} {s : State} {run : Variant → Outcome}
    (hrun : ∀ V, AnswersCode (run V) 0#3) :
    (8 ≤ vid.toNat ∨ s.cfg.enabled.getLsbD vid.toNat = false → AnswersCode (withVariant vid s run) 1#3) ∧
      (vid.toNat < 8 → s.cfg.enabled.getLsbD vid.toNat = true →
        (s.ready = false → AnswersCode (withVariant vid s run) 2#3) ∧
        (s.ready = true → AnswersCode (withVariant vid s run) 0#3)) := by
  refine ⟨fun hrefused => ?_, fun hvid hen => ⟨fun hready => ?_, fun hready => ?_⟩⟩
  · rw [withVariant_of_refused run hrefused]
    exact raise_answersCode .unknownVariant s
  · rw [withVariant_of_not_ready run hvid hen hready]
    exact raise_answersCode .notInitialised s
  · rw [withVariant_of_ready run hvid hen hready]
    exact hrun _

/-- `NotInitialised` comes before `NoActiveCalculation`; past both the command's own effect answers. -/
theorem inCalculation_answersCode {s : State} {run : Outcome} (hrun : AnswersCode run 0#3) :
    (s.ready = false → AnswersCode (inCalculation s run) 2#3) ∧
      (s.ready = true → s.active = false → AnswersCode (inCalculation s run) 3#3) ∧
      (s.ready = true → s.active = true → AnswersCode (inCalculation s run) 0#3) := by
  refine ⟨fun hready => ?_, fun hready hactive => ?_, fun hready hactive => ?_⟩
  · rw [inCalculation_of_not_ready run hready]
    exact raise_answersCode .notInitialised s
  · rw [inCalculation_of_not_active run hready hactive]
    exact raise_answersCode .noActiveCalculation s
  · rw [inCalculation_of_active run hready hactive]
    exact hrun

/-! ### Equal engines answer alike -/

theorem sameEngine_interface (s : State) (flight : Option InFlight) (bus : List HostEdge) (taken : List Response)
    (pace : List Nat) : SameEngine s { s with flight := flight, bus := bus, taken := taken, pace := pace } :=
  ⟨rfl, rfl, rfl, rfl, rfl, fun _ _ => rfl, rfl, rfl⟩

/-- States with the same engine differ only in the interface and the model's own fields. -/
theorem eq_of_sameEngine {s t : State} (h : SameEngine s t) :
    ∃ flight bus taken pace, t = { s with flight := flight, bus := bus, taken := taken, pace := pace } := by
  obtain ⟨hready, hactive, hcur, hacc, htbl, -, hcfg, hepoch⟩ := h
  refine ⟨t.flight, t.bus, t.taken, t.pace, ?_⟩
  rw [← hready, ← hactive, ← hcur, ← hacc, ← htbl, ← hcfg, ← hepoch]

/-- Where the first outcome is an answer, the second is one too: with the same response, leaving the same engine. The
latencies may differ (R198). -/
def AnswersAlike (o o' : Outcome) : Prop :=
  ∀ u, o = .next u → ∃ u', o' = .next u' ∧ u'.flight.map (·.rsp) = u.flight.map (·.rsp) ∧ SameEngine u u'

theorem answersAlike_next {u u' : State} (hrsp : u'.flight.map (·.rsp) = u.flight.map (·.rsp))
    (hsame : SameEngine u u') : AnswersAlike (.next u) (.next u') := by
  rintro _ ⟨⟩
  exact ⟨u', rfl, hrsp, hsame⟩

theorem respond_answersAlike (d : Word) {s t : State} (h : SameEngine s t) :
    AnswersAlike (respond d s) (respond d t) :=
  answersAlike_next rfl h

section
variable {s t : State} (h : SameEngine s t)
include h

theorem raise_answersAlike (e : ErrorKind) : AnswersAlike (raise e s) (raise e t) :=
  answersAlike_next rfl h

theorem withVariant_answersAlike {vid : VidField} {run run' : Variant → Outcome}
    (hrun : ∀ V, AnswersAlike (run V) (run' V)) :
    AnswersAlike (withVariant vid s run) (withVariant vid t run') := by
  have hraise := raise_answersAlike h
  obtain ⟨hready, -, -, -, -, -, hcfg, -⟩ := h
  unfold withVariant
  rw [hcfg, hready]
  cases lookup s.cfg vid with
  | error e => exact hraise e
  | ok V =>
    cases s.ready with
    | false => exact hraise .notInitialised
    | true => exact hrun V

theorem inCalculation_answersAlike {run run' : Outcome} (hrun : AnswersAlike run run') :
    AnswersAlike (inCalculation s run) (inCalculation t run') := by
  have hraise := raise_answersAlike h
  obtain ⟨hready, hactive, -⟩ := h
  rcases inCalculation_cases s run with ⟨hs, hr⟩ | ⟨hs, hr, ha⟩ | ⟨hs, hr, ha⟩ <;> rw [hs]
  · rw [inCalculation_of_not_ready run' (hready.trans hr)]
    exact hraise .notInitialised
  · rw [inCalculation_of_not_active run' (hready.trans hr) (hactive.trans ha)]
    exact hraise .noActiveCalculation
  · rw [inCalculation_of_active run' (hready.trans hr) (hactive.trans ha)]
    exact hrun

/-- A command reads the engine and nothing else of the state, but for the latency of its answer. -/
theorem exec_answersAlike (i : Instr) : AnswersAlike (exec i s) (exec i t) := by
  obtain ⟨flight, bus, taken, pace, rfl⟩ := eq_of_sameEngine h
  cases i with
  | status => exact respond_answersAlike _ h
  | init => exact answersAlike_next rfl (sameEngine_interface _ _ _ _ _)
  | start _ => exact withVariant_answersAlike h fun _ => respond_answersAlike _ (sameEngine_interface _ _ _ _ _)
  | byte _ | final => exact inCalculation_answersAlike h (respond_answersAlike _ (sameEngine_interface _ _ _ _ _))
  | tblrd _ _ => exact withVariant_answersAlike h fun _ => respond_answersAlike _ h

theorem accept_answersAlike (c : Word) : AnswersAlike (accept c s) (accept c t) := by
  unfold accept
  cases decode c with
  | error r => exact raise_answersAlike h .illegalCommand
  | ok i => exact exec_answersAlike h i

end

/-! ### An error is only an answer (R167) -/

theorem exec_error_next {i : Instr} {s t : State} {f : InFlight} (h : exec i s = .next t) (hf : t.flight = some f)
    (herr : f.rsp.err = true) : ∃ e, t = s.answer (Response.error e) := by
  rcases exec_next i s t h with herror | ⟨-, rfl⟩ | ⟨-, rfl⟩ | ⟨_, -, -, -, -, rfl⟩ | ⟨_, -, -, -, rfl⟩ |
    ⟨-, -, -, rfl⟩ | ⟨_, _, -, -, -, -, rfl⟩
  case inl => exact herror
  all_goals cases hf; cases herr

theorem accept_error_next {c : Word} {s t : State} {f : InFlight} (h : accept c s = .next t) (hf : t.flight = some f)
    (herr : f.rsp.err = true) : ∃ e, t = s.answer (Response.error e) := by
  rcases accept_cases c s with ⟨_, -, hc⟩ | ⟨i, -, hc⟩ <;> rw [hc] at h
  · exact ⟨.illegalCommand, (Host.Outcome.next.inj h).symm⟩
  · exact exec_error_next h hf herr

/-! ### The statements -/

/-- Settles O45, by induction on the number of edges: each gives a next state. -/
theorem nothingStopsTheMachine : Obligations.NothingStopsTheMachine := by
  intro s n
  induction n generalizing s with
  | zero => exact ⟨s, rfl⟩
  | succ n ih =>
    obtain ⟨t, ht⟩ := step_total s
    rw [core_run_succ, ht]
    exact ih t

/-- Settles O6: no encoding is reserved, so a reserved word decodes to no command and raises. -/
theorem reservedWordsRaiseIllegalCommand : Obligations.ReservedWordsRaiseIllegalCommand := by
  intro c s hc
  obtain ⟨r, hdecode⟩ := decode_error_of_reserved hc
  obtain ⟨hsame, -⟩ := answer_frame s (Response.error .illegalCommand)
  exact ⟨⟨r, hdecode⟩, _, accept_of_decode_error s hdecode, ⟨rfl, rfl, rfl, rfl, rfl⟩, hsame⟩

/-- Settles O27: the checks of each kind of command in their order, on the word's command. -/
theorem errorPriority : Obligations.ErrorPriority := by
  intro c s
  refine ⟨fun r hdecode => ?_, fun hdecode => ?_, fun vid j hdecode => ?_, fun b hdecode => ?_⟩
  · rw [accept_of_decode_error s hdecode]
    exact raise_answersCode .illegalCommand s
  · rcases hdecode with hdecode | hdecode <;> rw [accept_of_decode_ok s hdecode]
    · exact respond_answersCode (statusView s) s
    · exact ⟨_, rfl, _, rfl, rfl⟩
  · rcases hdecode with hdecode | hdecode <;> rw [accept_of_decode_ok s hdecode]
    all_goals exact withVariant_answersCode fun _ => respond_answersCode _ _
  · rcases hdecode with hdecode | hdecode <;> rw [accept_of_decode_ok s hdecode]
    all_goals exact inCalculation_answersCode (respond_answersCode _ _)

/-- Settles O28: an error is only an answer, so the engine is as before, and equal engines answer alike. -/
theorem errorsChangeNothing : Obligations.ErrorsChangeNothing := by
  intro c s t f h hf herr
  obtain ⟨e, rfl⟩ := accept_error_next h hf herr
  obtain ⟨hsame, -⟩ := answer_frame s (Response.error e)
  exact ⟨hsame, accept_answersAlike hsame⟩

end Sys2Proof.Proofs
end

section
/-! SUPPORT. The reset and hazards family (70_reset_and_hazards.md): a reset edge, the latencies and the edges up to a
valid response, and INIT during a calculation. -/

namespace Sys2Proof.Proofs

open Sys2Proof Sys2Proof.Machine Sys2Proof.Laws

/-! ### Reset edges (R190) -/

theorem step_reset {s : State} {e : HostEdge} {rest : List HostEdge} (hbus : s.bus = e :: rest)
    (hrst : e.rstN = false) : step s = .next ({ s with bus := rest } : State).resetEvent := by
  simp [step, clockEdge, edge_of_bus hbus, nextEdge_of_bus hbus, hrst]

/-! ### Latencies (R198) -/

theorem initLatency_pos (p : Params) : 1 ≤ initLatency p := Nat.le_max_left 1 p.tInit

/-- The realisation's choice is a latency: at least one edge and at most `T_CMD`. -/
theorem cmdLatency_bounds (s : State) : 1 ≤ cmdLatency s ∧ cmdLatency s ≤ max 1 s.cfg.tCmd := by
  unfold cmdLatency
  split <;> omega

theorem accept_init_wait {s t : State} {f : InFlight} (h : accept 0x1000#16 s = .next t) (hf : t.flight = some f) :
    f.wait + 1 = initLatency s.cfg := by
  rw [accept_wait h hf, if_pos rfl, Nat.sub_add_cancel (initLatency_pos s.cfg)]

theorem accept_wait_lt_tCmd {c : Word} {s t : State} {f : InFlight} (hc : c ≠ 0x1000#16) (h : accept c s = .next t)
    (hf : t.flight = some f) : f.wait + 1 ≤ max 1 s.cfg.tCmd := by
  obtain ⟨hpos, hle⟩ := cmdLatency_bounds s
  rw [accept_wait h hf, if_neg hc, Nat.sub_add_cancel hpos]
  exact hle

/-! ### Until the response is valid -/

/-- A response becomes valid within any number of edges no less than its latency to come, and is held while the host
does not take it: the latency's edges first, the rest as a stall (R61, R198). -/
theorem run_until_valid {s : State} {f : InFlight} {es rest : List HostEdge} (hflight : s.flight = some f)
    (hwait : f.wait ≤ es.length) (hbus : s.bus = es ++ rest) (hes : ∀ e ∈ es, e.rstN = true ∧ e.rspReady = false) :
    Host.Core.run core es.length s = .next { s with bus := rest, flight := some { f with wait := 0 } } := by
  obtain ⟨during, stalled, rfl, hlen⟩ : ∃ during stalled, es = during ++ stalled ∧ f.wait = during.length :=
    ⟨es.take f.wait, es.drop f.wait, (List.take_append_drop _ _).symm, (List.length_take_of_le hwait).symm⟩
  obtain ⟨hduring, hstalled⟩ := List.forall_mem_append.mp hes
  rw [List.append_assoc] at hbus
  have hvalid := run_latency (r := f.rsp) (hlen ▸ hflight) hbus fun e he => (hduring e he).1
  rw [List.length_append, run_add hvalid]
  exact run_stalled rfl rfl hstalled

/-! ### The statements -/

/-- Settles O15. -/
theorem latenciesKeepTheirParameters : Obligations.LatenciesKeepTheirParameters := by
  intro c s t f h hf
  refine ⟨?_, fun hc => accept_wait_lt_tCmd hc h hf⟩
  rintro rfl
  exact accept_init_wait h hf

/-- Settles O16: the accepting edge puts a response in flight with a latency that the bound covers, and the edges after
it make that response valid. -/
theorem acceptedCommandIsAnsweredInTime : Obligations.AcceptedCommandIsAnsweredInTime := by
  intro s c e es rest hflight hbus hrst hvalid hcmd hes hlen
  obtain ⟨t, ht⟩ := accept_total c { s with bus := es ++ rest }
  obtain ⟨r, ⟨hr, hbus', htaken, -⟩, -⟩ := accept_answers ht
  obtain ⟨f, hf, -⟩ := Option.map_eq_some_iff.mp hr
  have haccept : Host.Core.run core 1 s = .next t := by
    rw [run_one, step_accept hbus hrst hflight hvalid, hcmd]
    exact ht
  have hwait : f.wait ≤ es.length := by
    obtain ⟨hinit, hother⟩ := latenciesKeepTheirParameters c _ t f ht hf
    rw [hlen]
    split
    · exact Nat.le_sub_of_add_le (hinit ‹_›).le
    · exact Nat.le_sub_of_add_le (hother ‹_›)
  exact ⟨_, (run_add haccept).trans (run_until_valid hf hwait hbus' hes), rfl, htaken⟩

/-- Settles O48: a running calculation's variant is enabled and its table built (I-1, I-2), and the entries INIT writes
there are the same ones. -/
theorem initDuringACalculationIsHarmless : Obligations.InitDuringACalculationIsHarmless := by
  intro s t hs hactive h
  obtain ⟨hready, hcur⟩ := hs.activeIsReady hactive
  obtain rfl := next_of_init h
  refine ⟨fun i => ?_, rfl, rfl, rfl⟩
  exact (tblEntry_afterInit_enabled i rfl hcur).trans (tblEntry_of_inv hs hready hcur i).symm

/-- Settles O13: the pins are low as `rst_n` is, and the rest is the reset event's own values. -/
theorem resetEdgeClearsTheEngine : Obligations.ResetEdgeClearsTheEngine := by
  intro s e rest hbus hrst
  have hedge : s.edge.rstN = false := by rw [edge_of_bus hbus, hrst]
  refine ⟨?_, ?_, _, step_reset hbus hrst, rfl, rfl, rfl, rfl, rfl, rfl, rfl, fun hnext => ?_⟩
  · simp [State.pins, hedge]
  · simp [State.pins, hedge]
  · simpa [State.pins, State.edge] using hnext

end Sys2Proof.Proofs
end
